-- ==== Sys2Proof/Word.lean ====
section
/-! DEFINITION. The word types of the core: R8, R11, R13 (00_scope.md). Every datum is unsigned (R12). -/

namespace Sys2Proof

/-- A 32-bit word; `+` on it is addition modulo 2^32 (R8, R13). -/
abbrev Word := BitVec 32

/-- A byte of the message or of the digest (R8). -/
abbrev Byte := BitVec 8

/-- A command word as it stands on `cmd[15:0]` (R11, R70). -/
abbrev CmdWord := BitVec 16

end Sys2Proof
end

