-- ==== Sys2Proof/Syntax.lean ====
section
/-! DEFINITION. The command set: one constructor per row of spec/opcode_table.json (R73, 30_encoding.md). -/

namespace Sys2Proof

/-- The seven commands (R73). An operand is `arg = cmd[7:0]` at any of its 256 values (R72): the index ranges of the
read commands are checked at execution, not at decode (R74). -/
inductive Instr where
  /-- NOP (R104) -/
  | nop
  /-- INIT (R105) -/
  | init
  /-- WRBYTE b (R126): `b` is the message byte -/
  | wrbyte (b : Byte)
  /-- FINAL (R127) -/
  | final
  /-- RDWORD k (R184): `k` is a word index -/
  | rdword (k : Byte)
  /-- RDBYTE j (R185): `j` is a digest byte index -/
  | rdbyte (j : Byte)
  /-- RDHEX i (R186): `i` is a character index -/
  | rdhex (i : Byte)
  deriving DecidableEq, Repr

end Sys2Proof
end

