-- ==== Sys2Proof/WellFormed.lean ====
section
/-! DEFINITION. The assembler's check (R79, 30_encoding.md): the operand ranges it accepts. The hardware DECODES an
instruction that fails it and raises RANGE when it executes it, so decoding, encoding and execution are defined for the
ill-formed ones too. -/

namespace Sys2Proof

/-- The operand is in the range the assembler accepts: WRBYTE 0..255, RDWORD 0..4, RDBYTE 0..19, RDHEX 0..39 (R79). -/
def Instr.wellFormed : Instr → Bool
  | .nop => true
  | .init => true
  | .wrbyte _ => true
  | .final => true
  | .rdword k => decide (k.toNat ≤ 4)
  | .rdbyte j => decide (j.toNat ≤ 19)
  | .rdhex i => decide (i.toNat ≤ 39)

end Sys2Proof
end

