-- ==== Sys2Proof/Decode.lean ====
section
/-! DEFINITION. Decoding and encoding of command words: 30_encoding.md, R70 to R78. -/

namespace Sys2Proof

/-- Why a command word is not a command (R74 (b)). All three raise the one error ILLEGAL. -/
inductive IllegalReason where
  /-- `op` is 0x7 to 0xF (R75) -/
  | reservedOpcode
  /-- `rsv = cmd[11:8] ≠ 0` (R76) -/
  | reservedFieldNotZero
  /-- NOP, INIT or FINAL with `arg ≠ 0` (R77) -/
  | operandNotZero
  deriving DecidableEq, Repr

/-- What a 16-bit word decodes to (R74): one of the seven commands, or Illegal with the reason by name. -/
inductive Decoded where
  | cmd (i : Instr)
  | illegal (why : IllegalReason)
  deriving DecidableEq, Repr

/-- `op = cmd[15:12]` (R70). -/
def opField (w : CmdWord) : BitVec 4 := w.extractLsb' 12 4

/-- `rsv = cmd[11:8]` (R70). -/
def rsvField (w : CmdWord) : BitVec 4 := w.extractLsb' 8 4

/-- `arg = cmd[7:0]` (R70, R72). -/
def argField (w : CmdWord) : Byte := w.extractLsb' 0 8

/-- A command without an operand is one only when `arg = 0` (R77). -/
def noOperand (i : Instr) (arg : Byte) : Decoded :=
  if arg = 0 then .cmd i else .illegal .operandNotZero

/-- The opcode map (R73, R75), for a word whose reserved field is 0. -/
def decodeOpcode (op : Nat) (arg : Byte) : Decoded :=
  match op with
  | 0 => noOperand .nop arg
  | 1 => noOperand .init arg
  | 2 => .cmd (.wrbyte arg)
  | 3 => noOperand .final arg
  | 4 => .cmd (.rdword arg)
  | 5 => .cmd (.rdbyte arg)
  | 6 => .cmd (.rdhex arg)
  | _ => .illegal .reservedOpcode

/-- Decoding is total (R74). -/
def decode (w : CmdWord) : Decoded :=
  if 7 ≤ (opField w).toNat then .illegal .reservedOpcode
  else if rsvField w ≠ 0 then .illegal .reservedFieldNotZero
  else decodeOpcode (opField w).toNat (argField w)

/-- The opcode of a command (R73). -/
def Instr.opcode : Instr → BitVec 4
  | .nop => 0x0
  | .init => 0x1
  | .wrbyte _ => 0x2
  | .final => 0x3
  | .rdword _ => 0x4
  | .rdbyte _ => 0x5
  | .rdhex _ => 0x6

/-- The operand field of a command: its operand, or 0 where it has none (R72). -/
def Instr.operand : Instr → Byte
  | .nop => 0
  | .init => 0
  | .wrbyte b => b
  | .final => 0
  | .rdword k => k
  | .rdbyte j => j
  | .rdhex i => i

/-- The one format: `op` in [15:12], `rsv` in [11:8], `arg` in [7:0] (R70). -/
def commandWord (op rsv : BitVec 4) (arg : Byte) : CmdWord := op ++ rsv ++ arg

/-- The command's one word, its reserved field 0 (R73, R76). -/
def encode (i : Instr) : CmdWord := commandWord i.opcode 0 i.operand

/-- The assembler (R79): it encodes an instruction whose operand is in range and rejects the others, although the hardware
decodes those too. -/
def assemble (i : Instr) : Option CmdWord := if i.wellFormed then some (encode i) else none

/-- What the decoder reads from an opcode table row's word, numbered as the table numbers it: one 16-bit word whose bit 0
is bit 0 of `cmd` (R70, R71: there is one length, and the word arrives whole, so no byte order enters). A value with a bit
at 16 or above is no command word. -/
def decodeTableWord (nbits w : Nat) : Option Instr :=
  let bits := w % 2 ^ nbits
  if bits < 2 ^ 16 then
    match decode (BitVec.ofNat 16 bits) with
    | .cmd i => some i
    | .illegal _ => none
  else none

end Sys2Proof
end

