-- ==== Sys2Proof/Config.lean ====
section
/-! DEFINITION. The parameters of an instance: R9, R10 (00_scope.md), R38 (10_state.md). They are "strap values or
synthesis parameters"; State carries them as one field that no step changes, so that every statement about every
state holds for every configuration (DESIGN CHOICE, log 5). -/

namespace Sys2Proof

/-- LEN_POLICY (R9): which bits of the bit length the final block stores (R125). -/
inductive LenPolicy where
  /-- only `(8·L) mod 2^32`; the word before it is 0 (the source's behaviour, the default) -/
  | trunc32
  /-- the full 64-bit field -/
  | full64
  deriving DecidableEq, Repr

/-- The configuration of one instance, with the spec's defaults (R9, R10). -/
structure Config where
  lenPolicy  : LenPolicy := .trunc32
  lenCtrBits : Nat := 61
  deriving DecidableEq, Repr

/-- The largest message the core accepts, in bytes (R10): `2^LEN_CTR_BITS − 1`. -/
def Config.maxLen (c : Config) : Nat := 2 ^ c.lenCtrBits - 1

end Sys2Proof
end

