-- ==== Sys2Proof/Machine/State.lean ====
section
/-! DEFINITION. The state of one SHA1-CORE instance: 10_state.md (R20 to R33, R36), the reset values of R43, and the
model's own fields (the configuration, the host's moves, the fault records, whether dout was written). -/

namespace Sys2Proof.Machine

open Sys2Proof

/-- The top-level mode (R36). -/
inductive Phase where
  | idle
  | absorb
  | busy
  | done
  deriving DecidableEq, Repr

/-- What block completion does (R30). Its encoding is internal and not observable. -/
inductive After where
  | absorb
  | lenblk
  | done
  deriving DecidableEq, Repr

/-- The error codes (R201). Codes 5 to 7 are never produced, so they have no constructor (log 11). -/
inductive ErrCode where
  | none
  | illegal
  | sequence
  | range
  | length
  deriving DecidableEq, Repr

/-- What the host drives onto the input ports (R42), as the moves of a host that keeps a held command stable (R101, U7):
log 3. -/
inductive HostMove where
  /-- `cmd_valid = 1` with this word on `cmd[15:0]`, kept stable until the core accepts it (R100, R101) -/
  | command (w : CmdWord)
  /-- one step in which no command is presented (`cmd_valid = 0`) -/
  | wait
  /-- as `wait`, and the host uses the value it sees on the dout port (R41, R44): a step of the core like any other, but a
  use before the first successful read is a fault of the run (U2); log 2 -/
  | useDout
  /-- one step with `rst = 1` (R230) -/
  | reset
  deriving DecidableEq, Repr

/-- The state (R20), and below it the model's own fields. -/
structure State where
  /-- H0..H4, the hash state (R21) -/
  H     : Vector Word 5
  /-- working register a (R22) -/
  a     : Word
  /-- working register b (R22) -/
  b     : Word
  /-- working register c (R22) -/
  c     : Word
  /-- working register d (R22) -/
  d     : Word
  /-- working register e (R22) -/
  e     : Word
  /-- the message schedule (R23), all 80 words of it (R143 allows a window: log 13) -/
  W     : Vector Word 80
  /-- the block buffer (R24) -/
  M     : Vector Word 16
  /-- byte position in the current block, 0..64 (R26) -/
  p     : Fin 65
  /-- message length in bytes (R28), exact (R13); below `2^LEN_CTR_BITS` in every state a run reaches -/
  L     : Nat
  /-- engine step counter, 0..81 (R29) -/
  rc    : Fin 82
  /-- continuation after the block in progress (R30) -/
  after : After
  /-- top-level mode (R36) -/
  phase : Phase
  /-- error record: at least one command was refused (R33) -/
  err   : Bool
  /-- error record: the code of the first refusal (R33) -/
  ecode : ErrCode
  /-- data output register (R32) -/
  dout  : Word
  /-- MODEL: the instance's configuration (R38), which no step changes; log 5 -/
  cfg   : Config
  /-- MODEL: the host's moves still to come, the next one first (R100); log 3 -/
  host  : List HostMove
  /-- MODEL: the fault record of R219, the code of every refusal of the run, never cleared; log 6 -/
  faultLog : List ErrCode
  /-- MODEL: a read command has succeeded since reset (R44, U2); log 2 -/
  doutWritten : Bool
  /-- MODEL: the fault record of U2 (R44, R236): the host has used the dout port before a read command had succeeded since
  reset. Never cleared; log 2 -/
  doutMisused : Bool
  deriving DecidableEq, Repr

/-- Why the model stops. -/
inductive Fault where
  /-- Raised by WRBYTE and FINAL in ABSORB with `p = 64`: the word `M[p div 4] = M[16]` does not exist. R26 excludes the
  state and no run reaches it. Safe: the model stops. Log 9. -/
  | positionPastBlock
  deriving DecidableEq, Repr

/-- Why the model has no meaning for an instruction. -/
inductive Refusal where
  /-- Raised by an arm of `exec` whose instruction has no meaning yet; no arm is one. Safe: the model stops. -/
  | notModelled (mnemonic : String)
  deriving DecidableEq, Repr

/-- The state after reset (R43): IDLE, no error. Every other element of R20 is unspecified by R43 and holds 0 (ABSORB for
`after`) here: DESIGN CHOICE, unsafe, log 1. The configuration is the spec's default (R9, R10); the host presents nothing
(log 3). -/
def State.reset : State where
  H := Vector.replicate 5 0
  a := 0
  b := 0
  c := 0
  d := 0
  e := 0
  W := Vector.replicate 80 0
  M := Vector.replicate 16 0
  p := 0
  L := 0
  rc := 0
  after := .absorb
  phase := .idle
  err := false
  ecode := .none
  dout := 0
  cfg := {}
  host := []
  faultLog := []
  doutWritten := false
  doutMisused := false

end Sys2Proof.Machine
end

