-- ==== Sys2Proof/Machine/Operands.lean ====
section
/-! DEFINITION. Words, lanes and operands: rotation and byte lanes (R14, R15, 00_scope.md), big-endian block positions
(R50, 20_memory.md), digest bytes and hex digits (R181 to R183, 44_digest_out.md), operand ranges (R72, R103). -/

namespace Sys2Proof.Machine

open Sys2Proof

/-- `ROTL(x, n)`, `1 ≤ n ≤ 31` (R14). -/
def rotl (x : Word) (n : Nat) : Word := (x <<< n) ||| (x >>> (32 - n))

/-- `zext_32(v)` of a byte (R16). -/
def zext32 (v : Byte) : Word := v.setWidth 32

/-- `Lane(w, k)` is the byte `w[31−8k : 24−8k]`, lane 0 the most significant (R15). -/
def lane (w : Word) (k : Fin 4) : Byte := w.extractLsb' (24 - 8 * k.val) 8

/-- `SetLane(w, k, b)` is `w` with lane `k` replaced by `b` and all other bits unchanged (R15). -/
def setLane (w : Word) (k : Fin 4) (b : Byte) : Word :=
  (w &&& ~~~(0xFF#32 <<< (24 - 8 * k.val))) ||| (zext32 b <<< (24 - 8 * k.val))

/-- Byte `j` of a block lies in lane `j mod 4` of word `j div 4` (R50). -/
def blockByte (m : Vector Word 16) (j : Fin 64) : Byte :=
  lane (m[j.val / 4]'(by omega)) (Fin.ofNat 4 j.val)

/-- The block with its byte `j` replaced (R50, R126). -/
def setBlockByte (m : Vector Word 16) (j : Fin 64) (b : Byte) : Vector Word 16 :=
  m.set (j.val / 4) (setLane (m[j.val / 4]'(by omega)) (Fin.ofNat 4 j.val) b) (by omega)

/-- `DigestByte(j) = Lane(H[j div 4], j mod 4)` (R181, R52). -/
def digestByte (h : Vector Word 5) (j : Fin 20) : Byte :=
  lane (h[j.val / 4]'(by omega)) (Fin.ofNat 4 j.val)

/-- `nib(i)` (R182): the high nibble of byte `i div 2` for even `i`, the low one for odd `i`. -/
def hexNibble (h : Vector Word 5) (i : Fin 40) : BitVec 4 :=
  let byte := digestByte h ⟨i.val / 2, by omega⟩
  if i.val % 2 = 0 then byte.extractLsb' 4 4 else byte.extractLsb' 0 4

/-- `code(v)`: the ASCII code of the lowercase hex digit `v` (R182, R183). PRESUMED by the spec itself (G1): log 12. -/
def hexCode (v : BitVec 4) : Byte :=
  if v.toNat ≤ 9 then 0x30 + v.setWidth 8 else 0x61 + (v.setWidth 8 - 10)

/-- The operand of RDWORD as a word index, none beyond 4 (R103). -/
def wordIndex (k : Byte) : Option (Fin 5) := if h : k.toNat < 5 then some ⟨k.toNat, h⟩ else none

/-- The operand of RDBYTE as a digest byte index, none beyond 19 (R103). -/
def byteIndex (j : Byte) : Option (Fin 20) := if h : j.toNat < 20 then some ⟨j.toNat, h⟩ else none

/-- The operand of RDHEX as a character index, none beyond 39 (R103). -/
def charIndex (i : Byte) : Option (Fin 40) := if h : i.toNat < 40 then some ⟨i.toNat, h⟩ else none

end Sys2Proof.Machine
end

