-- ==== Sys2Proof/Machine/Flags.lean ====
section
/-! DEFINITION. The status flags and the ports: R36, R40 to R42 (10_state.md), R201 (60_exceptions.md). -/

namespace Sys2Proof.Machine

open Sys2Proof

/-- The encoding of a phase in `status[1:0]` (R36). -/
def Phase.code : Phase → BitVec 2
  | .idle => 0
  | .absorb => 1
  | .busy => 2
  | .done => 3

/-- The value of an error code in `ecode` (R201). -/
def ErrCode.code : ErrCode → BitVec 3
  | .none => 0
  | .illegal => 1
  | .sequence => 2
  | .range => 3
  | .length => 4

/-- `ready`: 1 exactly when the phase is not BUSY (R40, R100). -/
def State.ready (s : State) : Bool := s.phase != .busy

/-- The `status` output port: `{0, ecode[2:0], err, ready, phase[1:0]}`, a function of the state (R40). -/
def State.statusPort (s : State) : BitVec 8 :=
  (0 : BitVec 1) ++ s.ecode.code ++ BitVec.ofBool s.err ++ BitVec.ofBool s.ready ++ s.phase.code

/-- The `dout` output port: it shows the register, continuously, in every state (R32, R41). Before the first successful
read since reset what it shows is unspecified (R44): here the register's reset value (log 1). -/
def State.doutPort (s : State) : Word := s.dout

/-- The `rst` input port (R42). -/
def State.rstPort (s : State) : Bool := s.host.head? == some .reset

/-- The `cmd` input port while `cmd_valid = 1`, none while `cmd_valid = 0` (R42). -/
def State.cmdPort (s : State) : Option CmdWord :=
  match s.host with
  | .command w :: _ => some w
  | _ => none

end Sys2Proof.Machine
end

