-- ==== Sys2Proof/Machine/Ops.lean ====
section
/-! DEFINITION. The operations the commands and the engine share: recording a refusal (R203, R204), the legality table
(R102) and the order of the checks (R103), entering BUSY, writing dout, reset (R230). The core has no trap mechanism
(R200, R209): recording a refusal is all that `raise Err(code)` does, and there is no return from it (R210). -/

namespace Sys2Proof.Machine

open Sys2Proof Host

/-- The outcome of a meaning or of a step. -/
abbrev Result := Outcome State Fault Refusal

/-- `raise Err(code)` (R203): the first code since reset or the last successful INIT is kept. The model's fault record
(R219) gets every code (log 6). Nothing else changes (R204). -/
def State.raise (code : ErrCode) (s : State) : State :=
  { s with
    err := true
    ecode := if s.err then s.ecode else code
    faultLog := s.faultLog ++ [code] }

/-- Whether a command runs its rule, raises SEQUENCE, or is held (R102). -/
inductive Legality where
  | legal
  | sequence
  | held
  deriving DecidableEq, Repr

/-- The columns of R102 for NOP and INIT: legal in every ready phase. -/
def anyReadyPhase : Phase → Legality
  | .idle => .legal
  | .absorb => .legal
  | .busy => .held
  | .done => .legal

/-- The columns of R102 for WRBYTE and FINAL: legal in ABSORB. -/
def onlyAbsorb : Phase → Legality
  | .idle => .sequence
  | .absorb => .legal
  | .busy => .held
  | .done => .sequence

/-- The columns of R102 for RDWORD, RDBYTE and RDHEX: legal in DONE. -/
def onlyDone : Phase → Legality
  | .idle => .sequence
  | .absorb => .sequence
  | .busy => .held
  | .done => .legal

/-- The SEQUENCE check of Execute (R103): the rule of the command runs where it is legal, SEQUENCE is raised where it is
not, and a command held in BUSY has no effect (R101; the step executes no command in BUSY: log 7). -/
def whenLegal (table : Phase → Legality) (s : State) (rule : State → Result) : Result :=
  match table s.phase with
  | .legal => rule s
  | .sequence => .next (s.raise .sequence)
  | .held => .next s

/-- Start of a BUSY period (R126, R127): the engine's next step is LOAD. -/
def State.enterBusy (after : After) (s : State) : State :=
  { s with phase := .busy, after := after, rc := 0 }

/-- A successful read command's write of dout (R32); the port is specified from then on (R44). -/
def State.writeDout (v : Word) (s : State) : State := { s with dout := v, doutWritten := true }

/-- A use of the dout port by the host: nothing of the core changes. Before the first successful read since reset it is a
fault of the run, which the model records and never clears (R44, R236, U2, D16); log 2. -/
def State.useDout (s : State) : State := { s with doutMisused := s.doutMisused || !s.doutWritten }

/-- The RANGE check of a read command (R103), then its write of dout (R184 to R186). -/
def readInto {n : Nat} (index : Option (Fin n)) (value : Fin n → Word) (s : State) : Result :=
  match index with
  | some i => .next (s.writeDout (value i))
  | none => .next (s.raise .range)

/-- Reset (R230): every element of R20 as in State.reset; the configuration, the host's moves and the fault records, which
are not the core's, stay (log 4). -/
def State.resetCore (s : State) : State :=
  { State.reset with cfg := s.cfg, host := s.host, faultLog := s.faultLog, doutMisused := s.doutMisused }

end Sys2Proof.Machine
end

