-- ==== Sys2Proof/Machine/Control.lean ====
section
/-! DEFINITION. NOP and INIT (R104, R105, 40_control.md). -/

namespace Sys2Proof.Machine

open Sys2Proof Host

/-- The initial hash value (R150, 43_compression.md). -/
def initialHash : Vector Word 5 :=
  #v[0x67452301, 0xEFCDAB89, 0x98BADCFE, 0x10325476, 0xC3D2E1F0]

/-- The effect of INIT (R105). -/
def State.startMessage (s : State) : State :=
  { s with
    H := initialHash
    M := Vector.replicate 16 0
    p := 0
    L := 0
    err := false
    ecode := .none
    phase := .absorb }

/-- NOP (R104). -/
def execNop (s : State) : Result := whenLegal anyReadyPhase s fun s => .next s

/-- INIT (R105). -/
def execInit (s : State) : Result := whenLegal anyReadyPhase s fun s => .next s.startMessage

end Sys2Proof.Machine
end

