-- ==== Sys2Proof/Machine/DigestOut.lean ====
section
/-! DEFINITION. RDWORD, RDBYTE, RDHEX (R184 to R186, 44_digest_out.md). -/

namespace Sys2Proof.Machine

open Sys2Proof Host

/-- RDWORD k (R184). -/
def execRdword (k : Byte) (s : State) : Result :=
  whenLegal onlyDone s fun s => readInto (wordIndex k) (fun k => s.H[k]) s

/-- RDBYTE j (R185). -/
def execRdbyte (j : Byte) (s : State) : Result :=
  whenLegal onlyDone s fun s => readInto (byteIndex j) (fun j => zext32 (digestByte s.H j)) s

/-- RDHEX i (R186). -/
def execRdhex (i : Byte) (s : State) : Result :=
  whenLegal onlyDone s fun s => readInto (charIndex i) (fun i => zext32 (hexCode (hexNibble s.H i))) s

end Sys2Proof.Machine
end

