-- ==== Sys2Proof/Machine/Packer.lean ====
section
/-! DEFINITION. WRBYTE, FINAL and the length block (R125 to R128, 41_packer.md). -/

namespace Sys2Proof.Machine

open Sys2Proof Host

/-- `LenLo(L) = (8·L) mod 2^32` (R125). -/
def lenLo (len : Nat) : Word := BitVec.ofNat 32 (8 * len)

/-- `LenHi(L)` (R125): 0 under Trunc32, `(8·L) div 2^32 mod 2^32` under Full64. -/
def lenHi (policy : LenPolicy) (len : Nat) : Word :=
  match policy with
  | .trunc32 => 0
  | .full64 => BitVec.ofNat 32 (8 * len / 2 ^ 32)

/-- The block with the length words in words 14 and 15, high word first (R51, R125). -/
def setLength (policy : LenPolicy) (len : Nat) (m : Vector Word 16) : Vector Word 16 :=
  (m.set 14 (lenHi policy len)).set 15 (lenLo len)

/-- The effect of WRBYTE past the LENGTH check (R126), at an old position 0..63. -/
def State.appendByte (b : Byte) (pos : Fin 64) (s : State) : State :=
  let s' := { s with M := setBlockByte s.M pos b, p := pos.succ, L := s.L + 1 }
  if pos.val + 1 = 64 then s'.enterBusy .absorb else s'

/-- The effect of FINAL (R127), at a position 0..63. -/
def State.padMessage (pos : Fin 64) (s : State) : State :=
  let m := setBlockByte s.M pos 0x80
  if pos.val ≤ 55 then
    State.enterBusy .done { s with M := setLength s.cfg.lenPolicy s.L m }
  else
    State.enterBusy .lenblk { s with M := m }

/-- The position of the next byte as one of the block's 64 (R26); at 64 in ABSORB, which no run reaches, there is none and
the model stops (log 9). -/
def atPosition (s : State) (rule : Fin 64 → Result) : Result :=
  if h : s.p.val < 64 then rule ⟨s.p.val, h⟩ else .fault .positionPastBlock

/-- WRBYTE b (R126), its LENGTH check last (R103). -/
def execWrbyte (b : Byte) (s : State) : Result :=
  whenLegal onlyAbsorb s fun s =>
    if s.L = s.cfg.maxLen then .next (s.raise .length)
    else atPosition s fun pos => .next (s.appendByte b pos)

/-- FINAL (R127). -/
def execFinal (s : State) : Result :=
  whenLegal onlyAbsorb s fun s => atPosition s fun pos => .next (s.padMessage pos)

/-- The length block (R128): words 0 to 13 are 0. -/
def lengthBlock (policy : LenPolicy) (len : Nat) : Vector Word 16 :=
  setLength policy len (Vector.replicate 16 0)

end Sys2Proof.Machine
end

