-- ==== Sys2Proof/Machine/Dispatch.lean ====
section
/-! DEFINITION. The meaning of each command (R73, R103): Execute past the decoder. -/

namespace Sys2Proof.Machine

open Sys2Proof

def exec (i : Instr) (s : State) : Host.Outcome State Fault Refusal :=
  match i with
  | .nop => Sys2Proof.Machine.execNop s
  | .init => Sys2Proof.Machine.execInit s
  | .wrbyte b => Sys2Proof.Machine.execWrbyte b s
  | .final => Sys2Proof.Machine.execFinal s
  | .rdword k => Sys2Proof.Machine.execRdword k s
  | .rdbyte j => Sys2Proof.Machine.execRdbyte j s
  | .rdhex n => Sys2Proof.Machine.execRdhex n s

end Sys2Proof.Machine
end

