-- ==== Sys2Proof/Machine/Engine.lean ====
section
/-! DEFINITION. The engine: the expander step (R140 to R142, 42_schedule.md) and LOAD, ROUND, FOLD, block completion and
their dispatch (R151 to R159, R166, 43_compression.md). Every engine step is defined for every input (R163). -/

namespace Sys2Proof.Machine

open Sys2Proof Host

/-- The quartile `q = t div 20` of round t (R151). -/
def quartile (t : Fin 80) : Fin 4 := ⟨t.val / 20, by omega⟩

/-- Ch (R152). -/
def ch (b c d : Word) : Word := (b &&& c) ||| (~~~b &&& d)

/-- Parity (R152). -/
def parity (b c d : Word) : Word := b ^^^ c ^^^ d

/-- Maj (R152). -/
def maj (b c d : Word) : Word := (b &&& c) ||| (b &&& d) ||| (c &&& d)

/-- The nonlinear function `f(q, b, c, d)` (R152). -/
def roundFunction (q : Fin 4) (b c d : Word) : Word :=
  match q with
  | 0 => ch b c d
  | 1 => parity b c d
  | 2 => maj b c d
  | 3 => parity b c d

/-- The round constant `K[q]` (R153). -/
def roundConstant (q : Fin 4) : Word :=
  match q with
  | 0 => 0x5A827999
  | 1 => 0x6ED9EBA1
  | 2 => 0x8F1BBCDC
  | 3 => 0xCA62C1D6

/-- The round value T (R155), from the values before the round and the round's schedule word. -/
def roundValue (t : Fin 80) (a b c d e w : Word) : Word :=
  rotl a 5 + roundFunction (quartile t) b c d + e + w + roundConstant (quartile t)

/-- The schedule recurrence (R141). -/
def scheduleWord (w3 w8 w14 w16 : Word) : Word := rotl (w3 ^^^ w8 ^^^ w14 ^^^ w16) 1

/-- The schedule word that ROUND(t) uses (R142): as LOAD left it for `t ≤ 15`, by the recurrence from there on. -/
def roundWord (w : Vector Word 80) (t : Fin 80) : Word :=
  if 16 ≤ t.val then
    scheduleWord (w[t.val - 3]'(by omega)) (w[t.val - 8]'(by omega)) (w[t.val - 14]'(by omega))
      (w[t.val - 16]'(by omega))
  else w[t.val]

/-- LOAD's copy of the block into words 0 to 15 of the schedule (R140). -/
def loadSchedule (m : Vector Word 16) (w : Vector Word 80) : Vector Word 80 :=
  Vector.ofFn fun t : Fin 80 => if h : t.val < 16 then m[t.val] else w[t.val]

/-- LOAD (R154). -/
def engineLoad (s : State) : State :=
  { s with
    W := loadSchedule s.M s.W
    a := s.H[0]
    b := s.H[1]
    c := s.H[2]
    d := s.H[3]
    e := s.H[4]
    rc := 1 }

/-- ROUND(t) (R156, R157); every read is of the state before the step (R16). -/
def engineRound (t : Fin 80) (s : State) : State :=
  { s with
    W := if 16 ≤ t.val then s.W.set t.val (roundWord s.W t) else s.W
    a := roundValue t s.a s.b s.c s.d s.e (roundWord s.W t)
    b := s.a
    c := rotl s.b 30
    d := s.c
    e := s.d
    rc := ⟨t.val + 2, by omega⟩ }

/-- FOLD's update of H (R158). -/
def foldHash (h : Vector Word 5) (a b c d e : Word) : Vector Word 5 :=
  #v[h[0] + a, h[1] + b, h[2] + c, h[3] + d, h[4] + e]

/-- Block completion (R159); with LENBLK the length block is built and the phase stays BUSY (R128). -/
def completeBlock (s : State) : State :=
  match s.after with
  | .absorb => { s with rc := 0, M := Vector.replicate 16 0, p := 0, phase := .absorb }
  | .lenblk => { s with rc := 0, M := lengthBlock s.cfg.lenPolicy s.L, after := .done }
  | .done => { s with rc := 0, phase := .done }

/-- FOLD, with block completion in the same step (R158). -/
def engineFold (s : State) : State :=
  completeBlock { s with H := foldHash s.H s.a s.b s.c s.d s.e }

/-- The engine's step (R166): chosen by rc alone. -/
def engineStep (s : State) : State :=
  if s.rc.val = 0 then engineLoad s
  else if h : s.rc.val ≤ 80 then engineRound ⟨s.rc.val - 1, by omega⟩ s
  else engineFold s

end Sys2Proof.Machine
end

