-- ==== Sys2Proof/Machine/Handshake.lean ====
section
/-! DEFINITION. The handshake (R100, R101, 40_control.md), Execute (R103) and the choice of the one enabled step (R17,
00_scope.md; R164, 43_compression.md; R230, 70_reset_and_hazards.md). -/

namespace Sys2Proof.Machine

open Sys2Proof Host

/-- `Execute(w)` of an accepted word (R103): the ILLEGAL check first, then the command's own. -/
def execute (w : CmdWord) (s : State) : Result :=
  match decode w with
  | .illegal _ => .next (s.raise .illegal)
  | .cmd i => exec i s

/-- One step in which no command is accepted and reset is low: the engine's, when it is enabled (R164); else nothing
changes (log 8). -/
def internalStep (s : State) : State :=
  if s.phase = .busy then engineStep s else s

/-- The next step of the machine. Reset wins over everything (R230). A presented command is accepted exactly when the core
is ready (R100); in BUSY it stays presented and the engine steps (R101). -/
def machineStep (s : State) : Result :=
  match s.host with
  | .reset :: rest => .next ({ s with host := rest }).resetCore
  | .command w :: rest =>
    if s.phase = .busy then .next (engineStep s) else execute w { s with host := rest }
  | .wait :: rest => .next (internalStep { s with host := rest })
  | .useDout :: rest => .next (internalStep ({ s with host := rest } : State).useDout)
  | [] => .next (internalStep s)

/-- The host presents this word next, ahead of its other moves (R100). -/
def State.present (w : CmdWord) (s : State) : State := { s with host := .command w :: s.host }

end Sys2Proof.Machine
end

