-- ==== Sys2Proof/Machine/Reference.lean ====
section
/-! DEFINITION. The reference functions the spec defines beside the machine: Pad (R120 to R125, 41_packer.md), Expand
(R144, 42_schedule.md), Compress and SHA1Words (R160, R161, 43_compression.md), the digest string (R187,
44_digest_out.md). Statements compare the machine with them; no step calls them. -/

namespace Sys2Proof.Machine

open Sys2Proof

/-- The block count of a message of `len` bytes (R121). -/
def blockCount (len : Nat) : Nat := (len + 8) / 64 + 1

/-- `w[i div 4] <- w[i div 4] OR (zext_32(b) << (24 − 8·(i mod 4)))` (R120, R122). -/
def orByte (w : List Word) (i : Nat) (b : Byte) : List Word :=
  w.modify (i / 4) fun x => x ||| (zext32 b <<< (24 - 8 * (i % 4)))

/-- Step 3 of Pad (R120): the bytes from position `i` on are OR-ed into the words in order. -/
def packBytes : List Byte → Nat → List Word → List Word
  | [], _, w => w
  | b :: bs, i, w => packBytes bs (i + 1) (orByte w i b)

/-- `Pad(B)` as words (R120): zeroes, the bytes, the pad byte, the length words. -/
def padWords (policy : LenPolicy) (msg : List Byte) : List Word :=
  let n := blockCount msg.length
  let w := orByte (packBytes msg 0 (List.replicate (16 * n) 0)) msg.length 0x80
  (w.set (16 * n - 1) (lenLo msg.length)).set (16 * n - 2) (lenHi policy msg.length)

/-- Block `k` of a word sequence is `w[16k .. 16k+15]` (R120). -/
def wordBlock (w : List Word) (k : Nat) : Vector Word 16 :=
  Vector.ofFn fun i : Fin 16 => w.getD (16 * k + i.val) 0

/-- The blocks of `Pad(B)`, in order (R120). -/
def padBlocks (policy : LenPolicy) (msg : List Byte) : List (Vector Word 16) :=
  (List.range (blockCount msg.length)).map (wordBlock (padWords policy msg))

/-- The first `16 + n` schedule words of a block, by the recurrence in increasing index (R141, R144). -/
def expandWords (block : Vector Word 16) : Nat → List Word
  | 0 => block.toList
  | n + 1 =>
    let w := expandWords block n
    w ++ [scheduleWord (w.getD (n + 13) 0) (w.getD (n + 8) 0) (w.getD (n + 2) 0) (w.getD n 0)]

/-- `Expand(block)` (R144). -/
def expand (block : Vector Word 16) : Vector Word 80 :=
  Vector.ofFn fun t : Fin 80 => (expandWords block 64).getD t.val 0

/-- The five working values of the reference compression (R160). -/
structure Working where
  a : Word
  b : Word
  c : Word
  d : Word
  e : Word
  deriving DecidableEq, Repr

/-- One round of the reference compression (R160). -/
def refRound (w : Vector Word 80) (r : Working) (t : Fin 80) : Working where
  a := roundValue t r.a r.b r.c r.d r.e w[t]
  b := r.a
  c := rotl r.b 30
  d := r.c
  e := r.d

/-- `Compress(H, block)` (R160). -/
def compress (h : Vector Word 5) (block : Vector Word 16) : Vector Word 5 :=
  let r := (List.finRange 80).foldl (refRound (expand block)) ⟨h[0], h[1], h[2], h[3], h[4]⟩
  foldHash h r.a r.b r.c r.d r.e

/-- `SHA1Words(B)` (R161): the state starts at IV and each block of `Pad(B)` is compressed in order. -/
def sha1Words (policy : LenPolicy) (msg : List Byte) : Vector Word 5 :=
  (padBlocks policy msg).foldl compress initialHash

/-- The codes of `HexChar(0) … HexChar(39)`, the digest string (R187). -/
def hexString (h : Vector Word 5) : List Byte :=
  (List.finRange 40).map fun i => hexCode (hexNibble h i)

end Sys2Proof.Machine
end

