-- ==== Sys2Proof/Safety.lean ====
section
/-! DEFINITION. Runs, what counts as a successful one (R219, 60_exceptions.md), the sequence of commands a host issues
for one digest (R189, R233), and the invariant of the machine (R25 to R28, 10_state.md; R203, 60_exceptions.md). -/

namespace Sys2Proof.Machine

open Sys2Proof Host

/-- `n` steps, ending at the first stop. -/
def steps : Nat → State → Result
  | 0, s => .next s
  | n + 1, s =>
    match step s with
    | .next t => steps n t
    | .fault r => .fault r
    | .refused r => .refused r

/-- `n` engine steps (R166), as a BUSY period takes them. -/
def engineSteps : Nat → State → State
  | 0, s => s
  | n + 1, s => engineSteps n (engineStep s)

/-- No fault of the run was recorded so far: no refusal (R219), and no use of dout before a successful read (U2). -/
def State.noErrorRecorded (s : State) : Prop := s.faultLog = [] ∧ s.doutMisused = false

/-- `INIT; WRBYTE B[0]; …; WRBYTE B[L−1]; FINAL` (R129, R189; the macro HASH of R80). -/
def hashMoves (msg : List Byte) : List HostMove :=
  .command (encode .init) :: msg.map (fun b => .command (encode (.wrbyte b))) ++ [.command (encode .final)]

/-- `RDHEX 0; …; RDHEX 39` (R189; the macro RDDIGEST of R80). -/
def readHexMoves : List HostMove :=
  (List.range 40).map fun i => .command (encode (.rdhex (BitVec.ofNat 8 i)))

/-- The host does not raise rst before it next presents a command: a BUSY period it starts in ends undisturbed, since a
held command stays (R101, R230). -/
def noResetAhead : List HostMove → Prop
  | [] => True
  | .command _ :: _ => True
  | .wait :: rest => noResetAhead rest
  | .useDout :: rest => noResetAhead rest
  | .reset :: _ => False

/-- How many steps the commands of `hashMoves` and their BUSY periods take for a message of `len` bytes (R167, R238). -/
def digestSteps (len : Nat) : Nat := len + 2 + 82 * blockCount len

/-- The block buffer at each LOAD among the next `n` steps, in order (R129, R154). -/
def loadedBlocks : Nat → State → List (Vector Word 16)
  | 0, _ => []
  | n + 1, s =>
    (if s.phase = .busy ∧ s.rc = 0 ∧ s.rstPort = false then [s.M] else []) ++
      match step s with
      | .next t => loadedBlocks n t
      | .fault _ => []
      | .refused _ => []

/-- The message bytes accepted since the last INIT (R31), after one more step: a reset or an accepted INIT starts anew, an
accepted WRBYTE that is not refused adds its byte (R126, R28), nothing else counts. -/
def messageNext (s : State) (msg : List Byte) : List Byte :=
  match s.host with
  | .reset :: _ => []
  | .command w :: _ =>
    if s.phase = .busy then msg
    else
      match decode w with
      | .cmd .init => []
      | .cmd (.wrbyte b) => if s.phase = .absorb ∧ s.L ≠ s.cfg.maxLen then msg ++ [b] else msg
      | _ => msg
  | _ => msg

/-- The message bytes accepted since the last INIT, after `n` more steps. -/
def messageAfter : Nat → State → List Byte → List Byte
  | 0, _, msg => msg
  | n + 1, s, msg =>
    match step s with
    | .next t => messageAfter n t (messageNext s msg)
    | .fault _ => msg
    | .refused _ => msg

/-- The invariant every step keeps. -/
structure State.Inv (s : State) : Prop where
  /-- in ABSORB, `p ≤ 63` (R26) and `p = L mod 64` (R27) -/
  absorb_p : s.phase = .absorb → s.p.val < 64 ∧ s.p.val = s.L % 64
  /-- in ABSORB, every byte of the block from `p` on is 0 (R25) -/
  absorb_tail : s.phase = .absorb → ∀ j : Fin 64, s.p.val ≤ j.val → blockByte s.M j = 0
  /-- a BUSY block that returns to ABSORB is one the 64th byte filled (R26, R27) -/
  busy_full : s.phase = .busy → s.after = .absorb → s.p.val = 64 ∧ s.L % 64 = 0 ∧ 0 < s.L
  /-- a BUSY block after FINAL has `p = L mod 64` (R27) -/
  busy_final : s.phase = .busy → s.after ≠ .absorb → s.p.val < 64 ∧ s.p.val = s.L % 64
  /-- the length block follows only a pad byte at position 56 or later (R127) -/
  busy_lenblk : s.phase = .busy → s.after = .lenblk → 56 ≤ s.p.val
  /-- `p = 64` occurs only in BUSY (R26); before the first INIT `p` is unspecified (R43) -/
  done_p : s.phase = .done → s.p.val < 64
  /-- the length counter never passes its maximum (R28); before the first INIT it is unspecified (R43) -/
  length_le : s.phase ≠ .idle → s.L ≤ s.cfg.maxLen
  /-- `err` is set exactly when a code is recorded (R33) -/
  err_iff : s.err = true ↔ s.ecode ≠ .none
  /-- the recorded code is one of the run's refusals (R203, R219) -/
  ecode_logged : s.err = true → s.ecode ∈ s.faultLog

end Sys2Proof.Machine
end

