-- ==== Sys2Proof/Certificates/Slice0/Obligations.lean ====
section
/-! DEFINITION. What is stated about the model. Each docstring names the rules of spec/ it formalises. In statements
about a step, `s.host = .command w :: rest` says that the host presents `w` (R42, R100); the fields `host`, `faultLog`,
`cfg`, `doutWritten` and `doutMisused` are the model's own (logs 2, 3, 5, 6). An equality `… = .next { s with … }` is also
the frame: every field it does not name is unchanged. -/

open Sys2Proof Sys2Proof.Machine

/-! ## Encoding -/

/-- R70, R73, R74: a word decodes to an instruction exactly when it is that instruction's encoding, at every operand. -/
def Obligations.EncodingIsBijective : Prop :=
  ∀ (w : CmdWord) (i : Instr), decode w = .cmd i ↔ encode i = w

/-- R73 as its match and mask over the word's number (mask 0xFFFF compares all of it, mask 0xFF00 all above bit 7), with
the words that are left over exactly those with a reserved opcode, a reserved field that is not 0, or an operand on
NOP, INIT or FINAL. -/
def Obligations.DecodeFollowsMatchAndMask : Prop :=
  ∀ w : CmdWord,
    (decode w = .cmd .nop ↔ w.toNat = 0x0000) ∧
    (decode w = .cmd .init ↔ w.toNat = 0x1000) ∧
    (∀ b : Byte, decode w = .cmd (.wrbyte b) ↔ w.toNat / 0x100 = 0x20 ∧ w.toNat % 0x100 = b.toNat) ∧
    (decode w = .cmd .final ↔ w.toNat = 0x3000) ∧
    (∀ k : Byte, decode w = .cmd (.rdword k) ↔ w.toNat / 0x100 = 0x40 ∧ w.toNat % 0x100 = k.toNat) ∧
    (∀ j : Byte, decode w = .cmd (.rdbyte j) ↔ w.toNat / 0x100 = 0x50 ∧ w.toNat % 0x100 = j.toNat) ∧
    (∀ i : Byte, decode w = .cmd (.rdhex i) ↔ w.toNat / 0x100 = 0x60 ∧ w.toNat % 0x100 = i.toNat) ∧
    ((∃ why, decode w = .illegal why) ↔
      7 ≤ w.toNat / 0x1000 ∨ w.toNat / 0x100 % 0x10 ≠ 0 ∨
        ((w.toNat / 0x1000 = 0 ∨ w.toNat / 0x1000 = 1 ∨ w.toNat / 0x1000 = 3) ∧ w.toNat % 0x100 ≠ 0))

/-- R79, R73: words written out from the encodings, one of each command, and three that are none. -/
def Obligations.TableWordsDecode : Prop :=
  decode 0x0000 = .cmd .nop ∧ decode 0x1000 = .cmd .init ∧ decode 0x2061 = .cmd (.wrbyte 0x61) ∧
  decode 0x3000 = .cmd .final ∧ decode 0x4004 = .cmd (.rdword 4) ∧ decode 0x5013 = .cmd (.rdbyte 19) ∧
  decode 0x6027 = .cmd (.rdhex 39) ∧ decode 0x7000 = .illegal .reservedOpcode ∧
  decode 0x2141 = .illegal .reservedFieldNotZero ∧ decode 0x1001 = .illegal .operandNotZero

/-- R79: the assembler accepts exactly the operands in range (0..4, 0..19, 0..39 for the reads, any for WRBYTE), and what
it writes decodes back; the hardware decodes an out-of-range operand as well (R74). -/
def Obligations.AssemblerChecksOperandRange : Prop :=
  (∀ (i : Instr) (w : CmdWord), assemble i = some w ↔ w = encode i ∧
    (∀ k, i = .rdword k → k.toNat ≤ 4) ∧ (∀ j, i = .rdbyte j → j.toNat ≤ 19) ∧ (∀ n, i = .rdhex n → n.toNat ≤ 39)) ∧
  (assemble .nop = some 0x0000 ∧ assemble .init = some 0x1000 ∧ assemble (.wrbyte 0x61) = some 0x2061 ∧
    assemble .final = some 0x3000 ∧ assemble (.rdword 4) = some 0x4004 ∧ assemble (.rdbyte 19) = some 0x5013 ∧
    assemble (.rdhex 39) = some 0x6027)

/-! ## Handshake, Execute, errors -/

/-- R100, R103: a step of a ready core whose host presents a word that decodes to `i` runs `i`, the word consumed. -/
def Obligations.StepRunsDecodedCommand : Prop :=
  ∀ (s : State) (w : CmdWord) (rest : List HostMove) (i : Instr),
    s.phase ≠ .busy → s.host = .command w :: rest → decode w = .cmd i →
      step s = exec i { s with host := rest }

/-- R100: a word placed on the command port of a ready core (log 14) is the next one the step runs. -/
def Obligations.PlacedWordRunsNext : Prop :=
  ∀ (s : State) (w : Nat) (i : Instr), s.phase ≠ .busy → decodeTableWord 16 w = some i →
    step (s.withFetchWord 16 w) = exec i s

/-- R75, R76, R77: an accepted word with a reserved opcode, a reserved field that is not 0, or an operand on NOP, INIT or
FINAL raises ILLEGAL and changes nothing else. -/
def Obligations.IllegalWordRaisesIllegal : Prop :=
  ∀ (s : State) (w : CmdWord) (rest : List HostMove),
    s.phase ≠ .busy → s.host = .command w :: rest →
    (7 ≤ w.toNat / 0x1000 ∨ w.toNat / 0x100 % 0x10 ≠ 0 ∨
      ((w.toNat / 0x1000 = 0 ∨ w.toNat / 0x1000 = 1 ∨ w.toNat / 0x1000 = 3) ∧ w.toNat % 0x100 ≠ 0)) →
      step s = .next { s with
        host := rest
        err := true
        ecode := if s.err then s.ecode else .illegal
        faultLog := s.faultLog ++ [.illegal] }

/-- R203: `raise Err(code)` sets the record when err is 0; a later error leaves err and ecode unchanged. The code also goes
to the model's fault record (log 6). -/
def Obligations.RaiseKeepsFirstCode : Prop :=
  ∀ (code : ErrCode) (s : State),
    (s.err = false → s.raise code = { s with err := true, ecode := code, faultLog := s.faultLog ++ [code] }) ∧
    (s.err = true → s.raise code = { s with faultLog := s.faultLog ++ [code] })

/-- R103, R202, R205: which one code an accepted word raises, in the order ILLEGAL, SEQUENCE, RANGE, LENGTH, read off
the model's fault record. -/
def Obligations.ExecuteChecksInOrder : Prop :=
  ∀ (s t : State) (w : CmdWord) (rest : List HostMove),
    s.phase ≠ .busy → s.host = .command w :: rest → step s = .next t →
      t.faultLog = s.faultLog ++
        (let op := w.toNat / 0x1000
         let rsv := w.toNat / 0x100 % 0x10
         let arg := w.toNat % 0x100
         if 7 ≤ op ∨ rsv ≠ 0 ∨ ((op = 0 ∨ op = 1 ∨ op = 3) ∧ arg ≠ 0) then [.illegal]
         else if ((op = 2 ∨ op = 3) ∧ s.phase ≠ .absorb) ∨ ((op = 4 ∨ op = 5 ∨ op = 6) ∧ s.phase ≠ .done) then [.sequence]
         else if (op = 4 ∧ 4 < arg) ∨ (op = 5 ∧ 19 < arg) ∨ (op = 6 ∧ 39 < arg) then [.range]
         else if op = 2 ∧ s.L = 2 ^ s.cfg.lenCtrBits - 1 then [.length]
         else [])

/-- R204: a step that refuses a command (its code stands in the fault record after it) changes nothing but err and ecode,
and those only when err was 0. -/
def Obligations.RefusedCommandHasNoOtherEffect : Prop :=
  ∀ (s t : State) (w : CmdWord) (rest : List HostMove),
    s.phase ≠ .busy → s.host = .command w :: rest → step s = .next t → t.faultLog ≠ s.faultLog →
      ∃ code : ErrCode, code ≠ .none ∧ t = { s with
        host := rest
        err := true
        ecode := if s.err then s.ecode else code
        faultLog := s.faultLog ++ [code] }

/-- R102: the cells of the legality table that say SEQ raise SEQUENCE, and the BUSY column is held: the command has no
effect. -/
def Obligations.IllegalPhaseRaisesSequence : Prop :=
  ∀ (i : Instr) (s : State),
    (s.phase = .busy → exec i s = .next s) ∧
    ((∃ b, i = .wrbyte b) ∨ i = .final → s.phase = .idle ∨ s.phase = .done → exec i s = .next (s.raise .sequence)) ∧
    ((∃ n, i = .rdword n ∨ i = .rdbyte n ∨ i = .rdhex n) → s.phase = .idle ∨ s.phase = .absorb →
      exec i s = .next (s.raise .sequence))

/-- R206: err is cleared, or ecode changed once err is set, only by reset and by an accepted INIT (the word 0x1000). -/
def Obligations.ErrorRecordClearedOnlyByResetOrInit : Prop :=
  ∀ s t : State, step s = .next t → s.err = true → (t.err = false ∨ t.ecode ≠ s.ecode) →
    (∃ rest, s.host = .reset :: rest) ∨
      (s.phase ≠ .busy ∧ (∃ rest, s.host = .command 0x1000 :: rest) ∧ t.err = false ∧ t.ecode = .none)

/-- R219, U2, R38: over any run the fault records only grow (INIT and reset do not clear them), so a run that recorded a
fault is never one without; and the configuration stays. -/
def Obligations.FaultRecordAndConfigurationKept : Prop :=
  ∀ (n : Nat) (s t : State), steps n s = .next t →
    s.faultLog <+: t.faultLog ∧ (s.doutMisused = true → t.doutMisused = true) ∧
      (t.noErrorRecorded → s.noErrorRecorded) ∧ t.cfg = s.cfg

/-! ## NOP and INIT -/

/-- R104: NOP changes nothing, the error record included, in every phase (in BUSY it is held); a word with opcode 0 that
is not 0x0000 raises ILLEGAL. -/
def Obligations.NopHasNoEffect : Prop :=
  (∀ s : State, exec .nop s = .next s) ∧
  (∀ w : CmdWord, w.toNat / 0x1000 = 0 → w.toNat ≠ 0 → ∀ s : State, execute w s = .next (s.raise .illegal))

/-- R105: INIT in a ready phase: H is IV, M is 0, p and L are 0, the error record is cleared, the phase is ABSORB, status is
0x05, and nothing else changes (dout, W, a..e, rc, after); in BUSY it is held; a word with opcode 1 that is not 0x1000
raises ILLEGAL. -/
def Obligations.InitStartsNewDigest : Prop :=
  (∀ s : State, s.phase ≠ .busy →
    ∃ t : State, exec .init s = .next t ∧ t.statusPort = 0x05 ∧ t = { s with
      H := #v[0x67452301, 0xEFCDAB89, 0x98BADCFE, 0x10325476, 0xC3D2E1F0]
      M := Vector.replicate 16 0
      p := 0
      L := 0
      err := false
      ecode := .none
      phase := .absorb }) ∧
  (∀ s : State, s.phase = .busy → exec .init s = .next s) ∧
  (∀ w : CmdWord, w.toNat / 0x1000 = 1 → w.toNat ≠ 0x1000 → ∀ s : State, execute w s = .next (s.raise .illegal))

/-! ## The packer -/

/-- R126: WRBYTE b at old position `pos` (0..63): lane `pos mod 4` of word `pos div 4` is b, p and L count up, and the 64th
byte starts a BUSY period with after = ABSORB and rc = 0; LENGTH at the counter's maximum; SEQUENCE in IDLE and DONE;
held in BUSY; a word with opcode 2 and a reserved field that is not 0 raises ILLEGAL. -/
def Obligations.WrbyteAppendsByte : Prop :=
  (∀ (b : Byte) (s : State) (pos : Fin 64), s.phase = .absorb → s.p.val = pos.val →
    s.L ≠ 2 ^ s.cfg.lenCtrBits - 1 →
    ∃ t : State, exec (.wrbyte b) s = .next t ∧ t = { s with
      M := s.M.set (pos.val / 4) (setLane (s.M[pos.val / 4]'(by omega)) (Fin.ofNat 4 pos.val) b) (by omega)
      p := ⟨pos.val + 1, by omega⟩
      L := s.L + 1
      phase := if pos.val = 63 then .busy else .absorb
      after := if pos.val = 63 then .absorb else s.after
      rc := if pos.val = 63 then 0 else s.rc }) ∧
  (∀ (b : Byte) (s : State), s.phase = .absorb → s.L = 2 ^ s.cfg.lenCtrBits - 1 →
    exec (.wrbyte b) s = .next (s.raise .length)) ∧
  (∀ (b : Byte) (s : State), s.phase = .idle ∨ s.phase = .done → exec (.wrbyte b) s = .next (s.raise .sequence)) ∧
  (∀ (b : Byte) (s : State), s.phase = .busy → exec (.wrbyte b) s = .next s) ∧
  (∀ w : CmdWord, w.toNat / 0x1000 = 2 → w.toNat / 0x100 % 0x10 ≠ 0 → ∀ s : State, execute w s = .next (s.raise .illegal))

/-- R50, R126: the byte WRBYTE stores is byte p of the block, and every other byte of the block reads as before. -/
def Obligations.WrbyteStoresOneByte : Prop :=
  ∀ (b : Byte) (s : State), s.phase = .absorb → s.p.val < 64 → s.L ≠ 2 ^ s.cfg.lenCtrBits - 1 →
    ∃ t : State, exec (.wrbyte b) s = .next t ∧
      ∀ j : Fin 64, blockByte t.M j = if j.val = s.p.val then b else blockByte s.M j

/-- R127: FINAL at position `pos` (0..63): the pad byte 0x80 in lane `pos mod 4` of word `pos div 4`; the length words in
words 14 and 15 and after = DONE when `pos ≤ 55`, else after = LENBLK; BUSY with rc = 0, p and L unchanged; SEQUENCE in IDLE
and DONE; held in BUSY; a word with opcode 3 that is not 0x3000 raises ILLEGAL. With err clear, status becomes 0x02. -/
def Obligations.FinalPadsBlock : Prop :=
  (∀ (s : State) (pos : Fin 64), s.phase = .absorb → s.p.val = pos.val →
    let padded := s.M.set (pos.val / 4) (setLane (s.M[pos.val / 4]'(by omega)) (Fin.ofNat 4 pos.val) 0x80) (by omega)
    ∃ t : State, exec .final s = .next t ∧ (s.err = false → s.ecode = .none → t.statusPort = 0x02) ∧ t = { s with
      M := if pos.val ≤ 55 then (padded.set 14 (lenHi s.cfg.lenPolicy s.L)).set 15 (lenLo s.L) else padded
      after := if pos.val ≤ 55 then .done else .lenblk
      phase := .busy
      rc := 0 }) ∧
  (∀ s : State, s.phase = .idle ∨ s.phase = .done → exec .final s = .next (s.raise .sequence)) ∧
  (∀ s : State, s.phase = .busy → exec .final s = .next s) ∧
  (∀ w : CmdWord, w.toNat / 0x1000 = 3 → w.toNat ≠ 0x3000 → ∀ s : State, execute w s = .next (s.raise .illegal))

/-- R123, R127, R51: the block FINAL leaves, byte by byte: the pad byte at p; where the length fits, bytes 56..63 are the
two length words big-endian, high word first; every other byte reads as before. -/
def Obligations.FinalBlockBytes : Prop :=
  ∀ s : State, s.phase = .absorb → s.p.val < 64 →
    ∃ t : State, exec .final s = .next t ∧
      (s.p.val ≤ 55 → ∀ j : Fin 64, blockByte t.M j =
        if j.val = s.p.val then 0x80
        else if 60 ≤ j.val then lane (lenLo s.L) (Fin.ofNat 4 j.val)
        else if 56 ≤ j.val then lane (lenHi s.cfg.lenPolicy s.L) (Fin.ofNat 4 j.val)
        else blockByte s.M j) ∧
      (55 < s.p.val → ∀ j : Fin 64, blockByte t.M j = if j.val = s.p.val then 0x80 else blockByte s.M j)

/-- MODEL'S CHOICE (log 9), resting on R26's derived `p ≤ 63`: in ABSORB with p = 64, a state no run reaches, WRBYTE
(short of the LENGTH refusal) and FINAL stop by name. -/
def Obligations.PackerStopsPastBlock : Prop :=
  ∀ s : State, s.phase = .absorb → s.p.val = 64 →
    exec .final s = .fault .positionPastBlock ∧
    ∀ b : Byte, s.L ≠ s.cfg.maxLen → exec (.wrbyte b) s = .fault .positionPastBlock

/-- R125: the length words as numbers; the policies give the same words exactly when L < 2^29 (for L < 2^61, where the
64-bit field is exact), and then the same digest. -/
def Obligations.LengthFieldWords : Prop :=
  (∀ len : Nat, (lenLo len).toNat = (8 * len) % 2 ^ 32 ∧ lenHi .trunc32 len = 0 ∧
    (lenHi .full64 len).toNat = (8 * len) / 2 ^ 32 % 2 ^ 32) ∧
  (∀ len : Nat, len < 2 ^ 61 → (lenHi .full64 len).toNat * 2 ^ 32 + (lenLo len).toNat = 8 * len) ∧
  (∀ len : Nat, len < 2 ^ 61 → (lenHi .trunc32 len = lenHi .full64 len ↔ len < 2 ^ 29)) ∧
  (∀ msg : List Byte, msg.length < 2 ^ 29 → sha1Words .trunc32 msg = sha1Words .full64 msg) ∧
  (lenLo (2 ^ 29) = 0 ∧ lenHi .trunc32 (2 ^ 29) = 0 ∧ lenHi .full64 (2 ^ 29) = 1)

/-! ## The digest output -/

/-- R184: RDWORD k in DONE writes H[k] to dout for k ≤ 4 and raises RANGE beyond; SEQUENCE in IDLE and ABSORB; held in BUSY;
a word with opcode 4 and a reserved field that is not 0 raises ILLEGAL. -/
def Obligations.RdwordReturnsHashWord : Prop :=
  (∀ (k : Byte) (s : State), s.phase = .done →
    (∀ h : k.toNat < 5, exec (.rdword k) s = .next { s with dout := s.H[k.toNat], doutWritten := true }) ∧
    (4 < k.toNat → exec (.rdword k) s = .next (s.raise .range))) ∧
  (∀ (k : Byte) (s : State), s.phase = .idle ∨ s.phase = .absorb → exec (.rdword k) s = .next (s.raise .sequence)) ∧
  (∀ (k : Byte) (s : State), s.phase = .busy → exec (.rdword k) s = .next s) ∧
  (∀ w : CmdWord, w.toNat / 0x1000 = 4 → w.toNat / 0x100 % 0x10 ≠ 0 → ∀ s : State, execute w s = .next (s.raise .illegal))

/-- R185, R181: RDBYTE j in DONE writes bits [31 − 8·(j mod 4) : 24 − 8·(j mod 4)] of H[j div 4], zero-extended, for j ≤ 19,
and raises RANGE beyond; SEQUENCE in IDLE and ABSORB; held in BUSY; opcode 5 with a reserved field that is not 0 raises
ILLEGAL. -/
def Obligations.RdbyteReturnsDigestByte : Prop :=
  (∀ (j : Byte) (s : State), s.phase = .done →
    (∀ h : j.toNat < 20, ∃ t : State, exec (.rdbyte j) s = .next t ∧
      t = { s with
        dout := ((s.H[j.toNat / 4]'(by omega)) >>> (24 - 8 * (j.toNat % 4))) &&& 0xFF
        doutWritten := true }) ∧
    (19 < j.toNat → exec (.rdbyte j) s = .next (s.raise .range))) ∧
  (∀ (j : Byte) (s : State), s.phase = .idle ∨ s.phase = .absorb → exec (.rdbyte j) s = .next (s.raise .sequence)) ∧
  (∀ (j : Byte) (s : State), s.phase = .busy → exec (.rdbyte j) s = .next s) ∧
  (∀ w : CmdWord, w.toNat / 0x1000 = 5 → w.toNat / 0x100 % 0x10 ≠ 0 → ∀ s : State, execute w s = .next (s.raise .illegal))

/-- R186, R182, R183: RDHEX i in DONE writes the ASCII code of the i-th hex digit of the digest, most significant nibble
first, zero-extended, for i ≤ 39 (`0x30 + v` for a digit value v ≤ 9, `0x61 + (v − 10)` from 10 on), and raises RANGE
beyond; SEQUENCE in IDLE and ABSORB; held in BUSY; opcode 6 with a reserved field that is not 0 raises ILLEGAL. -/
def Obligations.RdhexReturnsHexDigit : Prop :=
  (∀ (i : Byte) (s : State), s.phase = .done →
    (∀ h : i.toNat < 40, ∃ t : State, exec (.rdhex i) s = .next t ∧
      ∃ v : Nat, v = (s.H[i.toNat / 8]'(by omega)).toNat / 16 ^ (7 - i.toNat % 8) % 16 ∧
        t = { s with
          dout := BitVec.ofNat 32 (if v ≤ 9 then 0x30 + v else 0x61 + (v - 10))
          doutWritten := true }) ∧
    (39 < i.toNat → exec (.rdhex i) s = .next (s.raise .range))) ∧
  (∀ (i : Byte) (s : State), s.phase = .idle ∨ s.phase = .absorb → exec (.rdhex i) s = .next (s.raise .sequence)) ∧
  (∀ (i : Byte) (s : State), s.phase = .busy → exec (.rdhex i) s = .next s) ∧
  (∀ w : CmdWord, w.toNat / 0x1000 = 6 → w.toNat / 0x100 % 0x10 ≠ 0 → ∀ s : State, execute w s = .next (s.raise .illegal))

/-- R187: the digest string is exactly 40 characters, each one of `0`..`9`, `a`..`f`; as the codes RDHEX returns, which are
ASCII by R183 (general knowledge, not in the source: log 12). -/
def Obligations.DigestStringIsLowercaseHex : Prop :=
  ∀ h : Vector Word 5, (hexString h).length = 40 ∧
    ∀ c ∈ hexString h, (0x30 ≤ c.toNat ∧ c.toNat ≤ 0x39) ∨ (0x61 ≤ c.toNat ∧ c.toNat ≤ 0x66)

/-- R188: while the host issues neither INIT nor reset, DONE is kept and H does not change, so a read command answers the
same however often it is repeated. -/
def Obligations.DigestStableInDone : Prop :=
  ∀ (n : Nat) (s t : State), s.phase = .done → HostMove.reset ∉ s.host → HostMove.command 0x1000 ∉ s.host →
    steps n s = .next t →
      t.phase = .done ∧ t.H = s.H ∧
      ∀ (k : Fin 5) (j : Fin 20) (i : Fin 40) (r : Instr) (u v : State),
        (r = .rdword (BitVec.ofNat 8 k.val) ∨ r = .rdbyte (BitVec.ofNat 8 j.val) ∨ r = .rdhex (BitVec.ofNat 8 i.val)) →
        exec r s = .next u → exec r t = .next v → v.dout = u.dout

/-! ## Who writes what -/

/-- R21: H is written by INIT (with IV), by FOLD, and by nothing else (reset leaves it unspecified). -/
def Obligations.HashStateWriters : Prop :=
  ∀ s t : State, step s = .next t → t.H ≠ s.H →
    (∃ rest, s.host = .reset :: rest) ∨
    (s.phase ≠ .busy ∧ (∃ rest, s.host = .command 0x1000 :: rest) ∧
      t.H = #v[0x67452301, 0xEFCDAB89, 0x98BADCFE, 0x10325476, 0xC3D2E1F0]) ∨
    (s.phase = .busy ∧ s.rc.val = 81 ∧
      t.H = #v[s.H[0] + s.a, s.H[1] + s.b, s.H[2] + s.c, s.H[3] + s.d, s.H[4] + s.e])

/-- R32: dout is written by a read command that succeeds in DONE and by nothing else (reset leaves it unspecified); a
command that records an error leaves it unchanged. R44: what the port shows is specified once one has succeeded (the
model's mark doutWritten, log 2). -/
def Obligations.DoutWriters : Prop :=
  ∀ s t : State, step s = .next t → (t.dout ≠ s.dout ∨ t.doutWritten ≠ s.doutWritten) →
    (∃ rest, s.host = .reset :: rest) ∨
    (s.phase = .done ∧ t.faultLog = s.faultLog ∧ t.doutWritten = true ∧
      ∃ (w : CmdWord) (rest : List HostMove), s.host = .command w :: rest ∧
        ((w.toNat / 0x100 = 0x40 ∧ w.toNat % 0x100 ≤ 4) ∨ (w.toNat / 0x100 = 0x50 ∧ w.toNat % 0x100 ≤ 19) ∨
          (w.toNat / 0x100 = 0x60 ∧ w.toNat % 0x100 ≤ 39)))

/-- R32, R41: the port shows the register in every state. R44, R236, U2: a use of it by the host changes nothing of the core
(in BUSY the engine steps as ever), and before a read has succeeded it is a fault of the run; nothing else is recorded so.
The move and the record are the model's (log 2). -/
def Obligations.DoutPortShowsRegister : Prop :=
  (∀ s : State, s.doutPort = s.dout) ∧
  (∀ (s : State) (rest : List HostMove), s.host = .useDout :: rest →
    ∃ t : State, step s = .next t ∧ t.doutPort = s.doutPort ∧
      (s.phase = .busy → t = { engineStep s with
        host := rest
        doutMisused := s.doutMisused || !s.doutWritten }) ∧
      (s.phase ≠ .busy → t = { s with host := rest, doutMisused := s.doutMisused || !s.doutWritten })) ∧
  (∀ s t : State, step s = .next t → t.doutMisused ≠ s.doutMisused →
    s.doutWritten = false ∧ t.doutMisused = true ∧ ∃ rest, s.host = .useDout :: rest)

/-- R28: L is set to 0 by INIT, counted up by an accepted WRBYTE that is not refused, and changed by nothing else (reset
leaves it unspecified); at its maximum it does not wrap. -/
def Obligations.LengthCounterWriters : Prop :=
  ∀ s t : State, step s = .next t → t.L ≠ s.L →
    (∃ rest, s.host = .reset :: rest) ∨
    (s.phase ≠ .busy ∧ (∃ rest, s.host = .command 0x1000 :: rest) ∧ t.L = 0) ∨
    (s.phase = .absorb ∧ s.L ≠ 2 ^ s.cfg.lenCtrBits - 1 ∧ t.L = s.L + 1 ∧
      ∃ (w : CmdWord) (rest : List HostMove), s.host = .command w :: rest ∧ w.toNat / 0x100 = 0x20)

/-- R102, R159: the phase changes only by reset, by INIT (to ABSORB), by the WRBYTE that fills the block and by FINAL
(ABSORB to BUSY), and by FOLD (BUSY to ABSORB or DONE, as `after` says). -/
def Obligations.PhaseTransitions : Prop :=
  ∀ s t : State, step s = .next t → t.phase ≠ s.phase →
    ((∃ rest, s.host = .reset :: rest) ∧ t.phase = .idle) ∨
    (s.phase ≠ .busy ∧ (∃ rest, s.host = .command 0x1000 :: rest) ∧ t.phase = .absorb) ∨
    (s.phase = .absorb ∧ t.phase = .busy ∧ s.p.val = 63 ∧
      ∃ (w : CmdWord) (rest : List HostMove), s.host = .command w :: rest ∧ w.toNat / 0x100 = 0x20) ∨
    (s.phase = .absorb ∧ t.phase = .busy ∧ ∃ rest, s.host = .command 0x3000 :: rest) ∨
    (s.phase = .busy ∧ s.rc.val = 81 ∧
      ((s.after = .absorb ∧ t.phase = .absorb) ∨ (s.after = .done ∧ t.phase = .done)))

/-- Frames of the seven commands together (R21 to R33): what each leaves unchanged whenever it gives a next state. -/
def Obligations.CommandFrames : Prop :=
  ∀ (i : Instr) (s t : State), exec i s = .next t →
    (t.a = s.a ∧ t.b = s.b ∧ t.c = s.c ∧ t.d = s.d ∧ t.e = s.e ∧ t.W = s.W ∧ t.cfg = s.cfg ∧ t.host = s.host ∧
      t.doutMisused = s.doutMisused) ∧
    (i ≠ .init → t.H = s.H) ∧
    (i ≠ .init → (∀ b, i ≠ .wrbyte b) → t.p = s.p ∧ t.L = s.L) ∧
    (i ≠ .init → i ≠ .final → (∀ b, i ≠ .wrbyte b) → ∀ j : Fin 64, blockByte t.M j = blockByte s.M j) ∧
    (i ≠ .final → (∀ b, i ≠ .wrbyte b) → t.rc = s.rc ∧ t.after = s.after ∧ (i ≠ .init → t.phase = s.phase)) ∧
    ((∀ n, i ≠ .rdword n ∧ i ≠ .rdbyte n ∧ i ≠ .rdhex n) → t.dout = s.dout ∧ t.doutWritten = s.doutWritten) ∧
    (i ≠ .init → t.faultLog = s.faultLog → t.err = s.err ∧ t.ecode = s.ecode)

/-! ## Reset -/

/-- R230: a step with rst = 1 gives IDLE with err 0 and ecode 0 from any phase, no command accepted (the fault records
and the host's later moves stand; dout is unspecified again, R44); and reset is the only way to leave BUSY other than finishing the block. -/
def Obligations.ResetTakesAnyPhaseToIdle : Prop :=
  (∀ (s : State) (rest : List HostMove), s.host = .reset :: rest →
    ∃ t : State, step s = .next t ∧ t.phase = .idle ∧ t.err = false ∧ t.ecode = .none ∧ t.statusPort = 0x04 ∧
      t.host = rest ∧ t.faultLog = s.faultLog ∧ t.doutMisused = s.doutMisused ∧ t.doutWritten = false ∧
      t.cfg = s.cfg) ∧
  (∀ s t : State, s.phase = .busy → step s = .next t → t.phase ≠ .busy →
    (∃ rest, s.host = .reset :: rest) ∨ s.rc.val = 81)

/-- R231: after reset the core is in IDLE with status 0x04 and ready. In IDLE, INIT goes to ABSORB, NOP changes nothing,
and every other word raises SEQUENCE or ILLEGAL and stays in IDLE. -/
def Obligations.IdleLeftOnlyByInit : Prop :=
  (State.reset.phase = .idle ∧ State.reset.statusPort = 0x04 ∧ State.reset.ready = true) ∧
  ∀ (s : State) (w : CmdWord) (rest : List HostMove), s.phase = .idle → s.host = .command w :: rest →
    (w = 0x1000 → ∃ t : State, step s = .next t ∧ t.phase = .absorb) ∧
    (w = 0x0000 → step s = .next { s with host := rest }) ∧
    (w ≠ 0x1000 → w ≠ 0x0000 →
      step s = .next (({ s with host := rest } : State).raise .sequence) ∨
      step s = .next (({ s with host := rest } : State).raise .illegal))

/-! ## The engine -/

/-- R17, R101, R164: in BUSY with reset low the step is the engine's, a presented command stays presented and no error is
recorded; in every other phase with nothing presented and reset low the core's state does not change. -/
def Obligations.EngineEnabledExactlyInBusy : Prop :=
  ∀ s : State,
    (s.phase = .busy → ∀ (w : CmdWord) (rest : List HostMove), s.host = .command w :: rest →
      step s = .next (engineStep s) ∧ (engineStep s).host = s.host ∧ (engineStep s).err = s.err ∧
        (engineStep s).ecode = s.ecode ∧ (engineStep s).faultLog = s.faultLog ∧ (engineStep s).dout = s.dout) ∧
    (s.phase = .busy → s.host = [] → step s = .next (engineStep s)) ∧
    (s.phase = .busy → ∀ rest : List HostMove, s.host = .wait :: rest →
      step s = .next { engineStep s with host := rest }) ∧
    (s.phase ≠ .busy → s.host = [] → step s = .next s) ∧
    (s.phase ≠ .busy → ∀ rest : List HostMove, s.host = .wait :: rest → step s = .next { s with host := rest })

/-- R154, R140: LOAD copies M into W[0..15] and H into a..e; rc becomes 1; nothing else changes. -/
def Obligations.LoadStep : Prop :=
  ∀ s : State, s.phase = .busy → s.rc.val = 0 →
    ∃ t : State, engineStep s = t ∧
      (∀ i : Fin 16, t.W[i.val] = s.M[i.val]) ∧
      (∀ i : Fin 80, 16 ≤ i.val → t.W[i.val] = s.W[i.val]) ∧
      t = { s with W := t.W, a := s.H[0], b := s.H[1], c := s.H[2], d := s.H[3], e := s.H[4], rc := 1 }

/-- R156, R155, R157, R142, R151, R152, R153: ROUND(t), with the nonlinear functions and the constants written out. -/
def Obligations.RoundStep : Prop :=
  ∀ (s : State) (t : Fin 80), s.phase = .busy → s.rc.val = t.val + 1 →
    ∀ wt : Word,
      (t.val < 16 → wt = s.W[t.val]) →
      (∀ h : 16 ≤ t.val, wt = rotl (s.W[t.val - 3] ^^^ s.W[t.val - 8] ^^^ s.W[t.val - 14] ^^^ s.W[t.val - 16]) 1) →
      ∃ r : State, engineStep s = r ∧
        (∀ i : Fin 80, r.W[i.val] = if i = t ∧ 16 ≤ t.val then wt else s.W[i.val]) ∧
        r = { s with
          W := r.W
          a := rotl s.a 5 +
            (if t.val < 20 then (s.b &&& s.c) ||| (~~~s.b &&& s.d)
             else if t.val < 40 then s.b ^^^ s.c ^^^ s.d
             else if t.val < 60 then (s.b &&& s.c) ||| (s.b &&& s.d) ||| (s.c &&& s.d)
             else s.b ^^^ s.c ^^^ s.d) + s.e + wt +
            (if t.val < 20 then 0x5A827999 else if t.val < 40 then 0x6ED9EBA1
             else if t.val < 60 then 0x8F1BBCDC else 0xCA62C1D6)
          b := s.a
          c := rotl s.b 30
          d := s.c
          e := s.d
          rc := ⟨t.val + 2, by omega⟩ }

/-- R158, R159, R128: FOLD adds a..e to H and completes the block: M and p cleared and ABSORB, or the length block built
and still BUSY, or DONE, as `after` says; rc becomes 0; nothing else changes. -/
def Obligations.FoldStep : Prop :=
  ∀ s : State, s.phase = .busy → s.rc.val = 81 →
    let h : Vector Word 5 := #v[s.H[0] + s.a, s.H[1] + s.b, s.H[2] + s.c, s.H[3] + s.d, s.H[4] + s.e]
    (s.after = .absorb →
      engineStep s = { s with H := h, rc := 0, M := Vector.replicate 16 0, p := 0, phase := .absorb }) ∧
    (s.after = .lenblk →
      engineStep s = { s with
        H := h
        rc := 0
        M := #v[0, 0, 0, 0, 0, 0, 0, 0, 0, 0, 0, 0, 0, 0, lenHi s.cfg.lenPolicy s.L, lenLo s.L]
        after := .done }) ∧
    (s.after = .done → engineStep s = { s with H := h, rc := 0, phase := .done })

/-- R160: LOAD, ROUND(0..79), FOLD on M = block and H compute exactly `Compress(H, block)`. -/
def Obligations.BlockComputesCompress : Prop :=
  ∀ s : State, s.phase = .busy → s.rc.val = 0 →
    (engineSteps 82 s).H = compress s.H s.M ∧ (engineSteps 82 s).rc.val = 0 ∧
    ∀ k : Nat, k < 82 → (engineSteps k s).phase = .busy ∧ (engineSteps k s).rc.val = k ∧ (engineSteps k s).H = s.H

/-- R240, R101: with reset low, a BUSY period ends: from engine step rc, after 82 − rc steps, and 82 more when the length
block follows (82 or 164 from its start); until then the core stays BUSY and a presented command stays presented, and
then it is the next to be accepted. That every step in BUSY is an engine step is the model's form of R165's fairness
(log 10). -/
def Obligations.BusyPeriodEnds : Prop :=
  ∀ (s : State) (w : CmdWord) (rest : List HostMove), s.phase = .busy → s.host = .command w :: rest →
    let n := 82 - s.rc.val + (if s.after = .lenblk then 82 else 0)
    (∀ k : Nat, k < n → ∃ t : State, steps k s = .next t ∧ t.phase = .busy ∧ t.host = s.host) ∧
    (∃ t : State, steps n s = .next t ∧ t.phase = (if s.after = .absorb then .absorb else .done) ∧ t.host = s.host ∧
      step t = execute w { t with host := rest })

/-! ## The reference functions and the top level -/

/-- R141, R144: Expand copies the block and follows the recurrence. -/
def Obligations.ExpandFollowsRecurrence : Prop :=
  ∀ (block : Vector Word 16) (t : Fin 80),
    (∀ h : t.val < 16, (expand block)[t.val] = block[t.val]) ∧
    (∀ h : 16 ≤ t.val, (expand block)[t.val] =
      rotl ((expand block)[t.val - 3] ^^^ (expand block)[t.val - 8] ^^^ (expand block)[t.val - 14] ^^^
        (expand block)[t.val - 16]) 1)

/-- R121: the block count is `floor((L + 8)/64) + 1`, the smallest n with `64·n ≥ L + 9`, and Pad makes that many blocks. -/
def Obligations.PadBlockCount : Prop :=
  ∀ (policy : LenPolicy) (msg : List Byte),
    blockCount msg.length = (msg.length + 8) / 64 + 1 ∧
    msg.length + 9 ≤ 64 * blockCount msg.length ∧
    (∀ n : Nat, msg.length + 9 ≤ 64 * n → blockCount msg.length ≤ n) ∧
    (padBlocks policy msg).length = blockCount msg.length

/-- R120, R122, R123, R124: byte i of the padded stream is message byte i, then 0x80, then zeros, then the two length words
big-endian in the last eight bytes. -/
def Obligations.PaddedStreamBytes : Prop :=
  ∀ (policy : LenPolicy) (msg : List Byte) (k : Nat) (j : Fin 64), k < blockCount msg.length →
    let i := 64 * k + j.val
    let last := 64 * blockCount msg.length
    ∃ block : Vector Word 16, (padBlocks policy msg)[k]? = some block ∧
      (∀ h : i < msg.length, blockByte block j = msg[i]) ∧
      (i = msg.length → blockByte block j = 0x80) ∧
      (msg.length < i → i < last - 8 → blockByte block j = 0) ∧
      (last - 8 ≤ i → i < last - 4 → blockByte block j = lane (lenHi policy msg.length) (Fin.ofNat 4 i)) ∧
      (last - 4 ≤ i → blockByte block j = lane (lenLo msg.length) (Fin.ofNat 4 i))

/-- R31, and R180's `S.H = SHA1Words(B)`: along every run from IDLE, whatever the host does (refused words, NOPs, waits,
resets, new INITs), with B the bytes accepted since the last INIT: in ABSORB, L is |B| and, with `k = (L − p)/64`, byte j
of the block is `B[64·k + j]` for every `j < p`; in DONE, H is SHA1Words(B). -/
def Obligations.DigestIsOfTheBytesWritten : Prop :=
  ∀ (n : Nat) (s t : State), s.phase = .idle → steps n s = .next t →
    let msg := messageAfter n s []
    (t.phase = .absorb → t.L = msg.length ∧
      ∀ j : Fin 64, j.val < t.p.val → msg[64 * ((t.L - t.p.val) / 64) + j.val]? = some (blockByte t.M j)) ∧
    (t.phase = .done → t.H = sha1Words t.cfg.lenPolicy msg)

/-- R129: the M values LOAD reads while a message is written and finished are exactly the blocks of `Pad(B)`, in order,
from any ready phase, for every message the counter can hold; whatever the host does afterwards, short of a reset in the
last BUSY period. Resting on the model's own: that all the LOADs fall within `digestSteps` steps, on log 10 (every step in
BUSY is an engine step); what the host can do after FINAL, on log 3. -/
def Obligations.LoadedBlocksArePadBlocks : Prop :=
  ∀ (s : State) (msg : List Byte) (rest : List HostMove),
    s.phase ≠ .busy → msg.length ≤ 2 ^ s.cfg.lenCtrBits - 1 → s.host = hashMoves msg ++ rest →
    noResetAhead rest →
      loadedBlocks (digestSteps msg.length) s = padBlocks s.cfg.lenPolicy msg

/-- R189 (with R180, R161, R167): from any ready phase, INIT, the bytes, FINAL and the 40 RDHEX record no error; after
`L + 2` command steps and `82·nblk` engine steps the phase is DONE and H is SHA1Words(B); the reads give the codes of the
characters of the digest string in order (ASCII: log 12); and the two policies agree for messages under 2^29 bytes. "No
error" is said of err, ecode and the model's fault records (logs 2, 6). Resting on the model's own: the mark doutWritten
(log 2), the host's list of moves (log 3), and the exact number of steps (log 10: every step in BUSY is an engine step). -/
def Obligations.DigestOfAnyMessage : Prop :=
  ∀ (s : State) (msg : List Byte) (rest : List HostMove),
    s.phase ≠ .busy → msg.length ≤ 2 ^ s.cfg.lenCtrBits - 1 →
    s.host = hashMoves msg ++ readHexMoves ++ rest →
      (∃ t : State, steps (digestSteps msg.length) s = .next t ∧ t.phase = .done ∧
        t.H = sha1Words s.cfg.lenPolicy msg ∧ t.L = msg.length ∧
        t.err = false ∧ t.ecode = .none ∧ t.faultLog = s.faultLog ∧ t.doutMisused = s.doutMisused) ∧
      (∀ i : Fin 40, ∃ u : State, steps (digestSteps msg.length + i.val + 1) s = .next u ∧ u.phase = .done ∧
        u.H = sha1Words s.cfg.lenPolicy msg ∧ u.err = false ∧ u.faultLog = s.faultLog ∧
        u.doutMisused = s.doutMisused ∧ u.doutWritten = true ∧
        u.doutPort = zext32 ((hexString (sha1Words s.cfg.lenPolicy msg)).getD i.val 0)) ∧
      (msg.length < 2 ^ 29 → sha1Words .trunc32 msg = sha1Words .full64 msg)

/-! ## What cannot be told apart -/

/-- R44: two instances in IDLE that agree on the error record, in neither of which a read has succeeded yet, whatever their
other registers hold, show the same status byte, and the same digest in DONE, after any number of steps under the same
configuration and host; and the same dout once a read has succeeded (which both then know). So no value the model chose for
reset (log 1) reaches a port except dout, and that only before a successful read (log 2). -/
def Obligations.UnspecifiedResetValuesReachNoPort : Prop :=
  ∀ (n : Nat) (s s' t : State),
    s.phase = .idle → s'.phase = .idle → s.err = s'.err → s.ecode = s'.ecode →
    s.doutWritten = false → s'.doutWritten = false → s.cfg = s'.cfg → s.host = s'.host →
    steps n s = .next t →
      ∃ t' : State, steps n s' = .next t' ∧ t'.statusPort = t.statusPort ∧
        t'.doutWritten = t.doutWritten ∧ (t.doutWritten = true → t'.doutPort = t.doutPort) ∧
        (t.phase = .done → t'.H = t.H)

/-- R45: INIT discards all state of the computation before it except dout: two ready instances whose hosts issue INIT next
go on alike, whatever their registers held. -/
def Obligations.InitDiscardsEarlierState : Prop :=
  ∀ (n : Nat) (s s' t : State) (rest : List HostMove),
    s.phase ≠ .busy → s'.phase ≠ .busy → s.cfg = s'.cfg →
    s.host = .command 0x1000 :: rest → s'.host = .command 0x1000 :: rest →
    steps (n + 1) s = .next t →
      ∃ t' : State, steps (n + 1) s' = .next t' ∧ t'.statusPort = t.statusPort ∧
        (t.phase = .done → t'.H = t.H) ∧
        (s.doutPort = s'.doutPort → t'.doutPort = t.doutPort)

/-! ## Invariant -/

/-- The machine after reset meets the invariant (R25 to R28, R33). -/
def Obligations.InvariantAtReset : Prop := State.reset.Inv

/-- Every step keeps the invariant: `p ≤ 63`, `p = L mod 64` and the zero tail in ABSORB, the relation of p, L and `after`
in BUSY, the length counter within its maximum, the error record consistent (R25, R26, R27, R28, R33). -/
def Obligations.EveryStepKeepsInvariant : Prop :=
  ∀ s t : State, s.Inv → step s = .next t → t.Inv

/-- R26, R25: from a state that meets the invariant no step stops: the one stop of the model lies outside it. -/
def Obligations.NoStepStopsUnderInvariant : Prop :=
  ∀ s : State, s.Inv → ∃ t : State, step s = .next t

/-! ## Words and ports -/

/-- R14: ROTL is the circular left rotation: bit i of the result is bit `i − n mod 32`. -/
def Obligations.RotlRotatesLeft : Prop :=
  ∀ (x : Word) (n : Nat), 1 ≤ n → n ≤ 31 →
    rotl x n = (x <<< n ||| x >>> (32 - n)) &&& 0xFFFFFFFF ∧
    ∀ i : Nat, i < 32 → (rotl x n).getLsbD i = x.getLsbD ((i + (32 - n)) % 32)

/-- R15: lane k is bits [31−8k : 24−8k], and SetLane replaces that field and no other bit. -/
def Obligations.LanesOfWord : Prop :=
  ∀ (w : Word) (k : Fin 4) (b : Byte),
    (∀ i : Nat, i < 8 → (lane w k).getLsbD i = w.getLsbD (24 - 8 * k.val + i)) ∧
    lane (setLane w k b) k = b ∧
    ∀ i : Nat, i < 32 → ¬ (24 - 8 * k.val ≤ i ∧ i ≤ 31 - 8 * k.val) → (setLane w k b).getLsbD i = w.getLsbD i

/-- R40: the status byte by its fields: phase in [1:0], ready in [2], err in [3], ecode in [6:4], 0 in [7]. -/
def Obligations.StatusPortLayout : Prop :=
  ∀ s : State,
    s.statusPort.toNat =
      (match s.phase with | .idle => 0 | .absorb => 1 | .busy => 2 | .done => 3) +
      (if s.phase = .busy then 0 else 4) + (if s.err then 8 else 0) +
      16 * (match s.ecode with | .none => 0 | .illegal => 1 | .sequence => 2 | .range => 3 | .length => 4)
end

