-- ==== Sys2Proof/Laws/Decode.lean ====
section
/-! SUPPORT. The fields of a command word and of an encoding (R70), and what a decoded command says of them (R73). -/

namespace Sys2Proof

theorem getLsbD_commandWord (op rsv : BitVec 4) (arg : Byte) (i : Nat) :
    (commandWord op rsv arg).getLsbD i =
      if i < 8 then arg.getLsbD i else if i < 12 then rsv.getLsbD (i - 8) else op.getLsbD (i - 12) := by
  have h : (commandWord op rsv arg).getLsbD i = ((op ++ rsv) ++ arg).getLsbD i := rfl
  rw [h, BitVec.getLsbD_append, BitVec.getLsbD_append]
  by_cases h1 : i < 8
  · simp [h1]
  · by_cases h2 : i < 12
    · have : i - 8 < 4 := by omega
      simp [h1, h2, this]
    · have h3 : ¬ (i - 8 < 4) := by omega
      have h4 : i - 8 - 4 = i - 12 := by omega
      simp [h1, h2, h3, h4]

theorem opField_commandWord (op rsv : BitVec 4) (arg : Byte) : opField (commandWord op rsv arg) = op := by
  apply BitVec.eq_of_getLsbD_eq
  intro i hi
  have h1 : ¬ (12 + i < 8) := by omega
  simp [opField, getLsbD_commandWord, hi, h1]

theorem rsvField_commandWord (op rsv : BitVec 4) (arg : Byte) : rsvField (commandWord op rsv arg) = rsv := by
  apply BitVec.eq_of_getLsbD_eq
  intro i hi
  have h1 : 8 + i < 12 := by omega
  simp [rsvField, getLsbD_commandWord, hi, h1]

theorem argField_commandWord (op rsv : BitVec 4) (arg : Byte) : argField (commandWord op rsv arg) = arg := by
  apply BitVec.eq_of_getLsbD_eq
  intro i hi
  simp [argField, getLsbD_commandWord, hi]

theorem commandWord_fields (w : CmdWord) : commandWord (opField w) (rsvField w) (argField w) = w := by
  apply BitVec.eq_of_getLsbD_eq
  intro i hi
  rw [getLsbD_commandWord]
  by_cases h1 : i < 8
  · simp [argField, h1]
  · by_cases h2 : i < 12
    · have h3 : 8 + (i - 8) = i := by omega
      have h4 : i - 8 < 4 := by omega
      simp [rsvField, h1, h2, h3, h4]
    · have h3 : 12 + (i - 12) = i := by omega
      have h4 : i - 12 < 4 := by omega
      simp [opField, h1, h2, h3, h4]

theorem word_ext_of_fields {v w : CmdWord} (ho : opField v = opField w) (hr : rsvField v = rsvField w)
    (ha : argField v = argField w) : v = w := by
  rw [← commandWord_fields v, ← commandWord_fields w, ho, hr, ha]

theorem opField_encode (i : Instr) : opField (encode i) = i.opcode := opField_commandWord _ _ _
theorem rsvField_encode (i : Instr) : rsvField (encode i) = 0 := rsvField_commandWord _ _ _
theorem argField_encode (i : Instr) : argField (encode i) = i.operand := argField_commandWord _ _ _

/-- Decoding, told by the three fields. -/
theorem decode_eq (w : CmdWord) :
    decode w = if 7 ≤ (opField w).toNat then .illegal .reservedOpcode
      else if rsvField w ≠ 0 then .illegal .reservedFieldNotZero
      else decodeOpcode (opField w).toNat (argField w) := rfl

theorem decode_cmd_fields {w : CmdWord} {i : Instr} (h : decode w = .cmd i) :
    opField w = i.opcode ∧ rsvField w = 0 ∧ argField w = i.operand := by
  rw [decode_eq] at h
  split at h
  · cases h
  · split at h
    · cases h
    · rename_i h7 hr
      refine ⟨?_, by simpa using hr, ?_⟩ <;>
      · unfold decodeOpcode noOperand at h
        split at h
        all_goals first | (split at h <;> cases h) | cases h
        all_goals first | (apply BitVec.eq_of_toNat_eq; assumption) | assumption | rfl

/-- The opcode of a word as a number (R70). -/
theorem opField_toNat (w : CmdWord) : (opField w).toNat = w.toNat / 0x1000 := by
  have := w.isLt
  simp [opField, Nat.shiftRight_eq_div_pow]
  omega

/-- The reserved field of a word as a number (R70). -/
theorem rsvField_toNat (w : CmdWord) : (rsvField w).toNat = w.toNat / 0x100 % 0x10 := by
  simp [rsvField, Nat.shiftRight_eq_div_pow]

/-- The operand of a word as a number (R72). -/
theorem argField_toNat (w : CmdWord) : (argField w).toNat = w.toNat % 0x100 := by
  simp [argField]

/-- The word of an instruction as a number (R73). -/
theorem encode_toNat (i : Instr) :
    (encode i).toNat = 0x1000 * i.opcode.toNat + i.operand.toNat := by
  have h1 := opField_toNat (encode i)
  have h2 := rsvField_toNat (encode i)
  have h3 := argField_toNat (encode i)
  rw [opField_encode] at h1
  rw [rsvField_encode] at h2
  rw [argField_encode] at h3
  simp at h2
  omega

/-- Which words are Illegal, in numbers (R74 to R77). -/
theorem decode_illegal_iff (w : CmdWord) :
    (∃ why, decode w = .illegal why) ↔
      7 ≤ w.toNat / 0x1000 ∨ w.toNat / 0x100 % 0x10 ≠ 0 ∨
        ((w.toNat / 0x1000 = 0 ∨ w.toNat / 0x1000 = 1 ∨ w.toNat / 0x1000 = 3) ∧ w.toNat % 0x100 ≠ 0) := by
  have hr : rsvField w = 0 ↔ w.toNat / 0x100 % 0x10 = 0 := by
    rw [← rsvField_toNat, BitVec.toNat_eq]; simp
  have ha : argField w = 0 ↔ w.toNat % 0x100 = 0 := by
    rw [← argField_toNat, BitVec.toNat_eq]; simp
  rw [decode_eq, opField_toNat]
  by_cases h7 : 7 ≤ w.toNat / 0x1000
  · simp [h7]
  · by_cases h0 : w.toNat / 0x100 % 0x10 = 0
    · have : rsvField w = 0 := hr.mpr h0
      simp only [h7, this, h0, if_false, ne_eq, not_true_eq_false, false_or]
      generalize w.toNat / 0x1000 = op at h7 ⊢
      have hop : op = 0 ∨ op = 1 ∨ op = 2 ∨ op = 3 ∨ op = 4 ∨ op = 5 ∨ op = 6 := by omega
      by_cases ha0 : argField w = 0
      · have := ha.mp ha0
        rcases hop with rfl | rfl | rfl | rfl | rfl | rfl | rfl <;> simp [decodeOpcode, noOperand, ha0, this]
      · have : w.toNat % 0x100 ≠ 0 := fun h => ha0 (ha.mpr h)
        have ha1 : argField w ≠ 0#8 := ha0
        rcases hop with rfl | rfl | rfl | rfl | rfl | rfl | rfl <;> simp [decodeOpcode, noOperand, ha1, this]
    · have : rsvField w ≠ 0#4 := fun h => h0 (hr.mp h)
      simp [h7, this, h0]

end Sys2Proof
end

