-- ==== Sys2Proof/Laws/State.lean ====
section
/-! SUPPORT. One lemma per field per state update: what each named update of the state writes and what it leaves. -/

namespace Sys2Proof.Machine

open Sys2Proof

/-! Fields of the state after reset (R43). -/

@[simp] theorem State.reset_H : State.reset.H = Vector.replicate 5 0 := rfl
@[simp] theorem State.reset_a : State.reset.a = 0 := rfl
@[simp] theorem State.reset_b : State.reset.b = 0 := rfl
@[simp] theorem State.reset_c : State.reset.c = 0 := rfl
@[simp] theorem State.reset_d : State.reset.d = 0 := rfl
@[simp] theorem State.reset_e : State.reset.e = 0 := rfl
@[simp] theorem State.reset_W : State.reset.W = Vector.replicate 80 0 := rfl
@[simp] theorem State.reset_M : State.reset.M = Vector.replicate 16 0 := rfl
@[simp] theorem State.reset_p : State.reset.p = 0 := rfl
@[simp] theorem State.reset_L : State.reset.L = 0 := rfl
@[simp] theorem State.reset_rc : State.reset.rc = 0 := rfl
@[simp] theorem State.reset_after : State.reset.after = .absorb := rfl
@[simp] theorem State.reset_phase : State.reset.phase = .idle := rfl
@[simp] theorem State.reset_err : State.reset.err = false := rfl
@[simp] theorem State.reset_ecode : State.reset.ecode = .none := rfl
@[simp] theorem State.reset_dout : State.reset.dout = 0 := rfl
@[simp] theorem State.reset_cfg : State.reset.cfg = {} := rfl
@[simp] theorem State.reset_host : State.reset.host = [] := rfl
@[simp] theorem State.reset_faultLog : State.reset.faultLog = [] := rfl
@[simp] theorem State.reset_doutWritten : State.reset.doutWritten = false := rfl
@[simp] theorem State.reset_doutMisused : State.reset.doutMisused = false := rfl

/-! Fields after recording a refusal (R203, R204). -/

@[simp] theorem State.raise_H (code : ErrCode) (s : State) : (s.raise code).H = s.H := rfl
@[simp] theorem State.raise_a (code : ErrCode) (s : State) : (s.raise code).a = s.a := rfl
@[simp] theorem State.raise_b (code : ErrCode) (s : State) : (s.raise code).b = s.b := rfl
@[simp] theorem State.raise_c (code : ErrCode) (s : State) : (s.raise code).c = s.c := rfl
@[simp] theorem State.raise_d (code : ErrCode) (s : State) : (s.raise code).d = s.d := rfl
@[simp] theorem State.raise_e (code : ErrCode) (s : State) : (s.raise code).e = s.e := rfl
@[simp] theorem State.raise_W (code : ErrCode) (s : State) : (s.raise code).W = s.W := rfl
@[simp] theorem State.raise_M (code : ErrCode) (s : State) : (s.raise code).M = s.M := rfl
@[simp] theorem State.raise_p (code : ErrCode) (s : State) : (s.raise code).p = s.p := rfl
@[simp] theorem State.raise_L (code : ErrCode) (s : State) : (s.raise code).L = s.L := rfl
@[simp] theorem State.raise_rc (code : ErrCode) (s : State) : (s.raise code).rc = s.rc := rfl
@[simp] theorem State.raise_after (code : ErrCode) (s : State) : (s.raise code).after = s.after := rfl
@[simp] theorem State.raise_phase (code : ErrCode) (s : State) : (s.raise code).phase = s.phase := rfl
@[simp] theorem State.raise_err (code : ErrCode) (s : State) : (s.raise code).err = true := rfl
@[simp] theorem State.raise_ecode (code : ErrCode) (s : State) :
    (s.raise code).ecode = if s.err then s.ecode else code := rfl
@[simp] theorem State.raise_dout (code : ErrCode) (s : State) : (s.raise code).dout = s.dout := rfl
@[simp] theorem State.raise_cfg (code : ErrCode) (s : State) : (s.raise code).cfg = s.cfg := rfl
@[simp] theorem State.raise_host (code : ErrCode) (s : State) : (s.raise code).host = s.host := rfl
@[simp] theorem State.raise_faultLog (code : ErrCode) (s : State) :
    (s.raise code).faultLog = s.faultLog ++ [code] := rfl
@[simp] theorem State.raise_doutWritten (code : ErrCode) (s : State) :
    (s.raise code).doutWritten = s.doutWritten := rfl
@[simp] theorem State.raise_doutMisused (code : ErrCode) (s : State) :
    (s.raise code).doutMisused = s.doutMisused := rfl

/-! Fields after the start of a BUSY period (R126, R127). -/

@[simp] theorem State.enterBusy_H (k : After) (s : State) : (s.enterBusy k).H = s.H := rfl
@[simp] theorem State.enterBusy_a (k : After) (s : State) : (s.enterBusy k).a = s.a := rfl
@[simp] theorem State.enterBusy_b (k : After) (s : State) : (s.enterBusy k).b = s.b := rfl
@[simp] theorem State.enterBusy_c (k : After) (s : State) : (s.enterBusy k).c = s.c := rfl
@[simp] theorem State.enterBusy_d (k : After) (s : State) : (s.enterBusy k).d = s.d := rfl
@[simp] theorem State.enterBusy_e (k : After) (s : State) : (s.enterBusy k).e = s.e := rfl
@[simp] theorem State.enterBusy_W (k : After) (s : State) : (s.enterBusy k).W = s.W := rfl
@[simp] theorem State.enterBusy_M (k : After) (s : State) : (s.enterBusy k).M = s.M := rfl
@[simp] theorem State.enterBusy_p (k : After) (s : State) : (s.enterBusy k).p = s.p := rfl
@[simp] theorem State.enterBusy_L (k : After) (s : State) : (s.enterBusy k).L = s.L := rfl
@[simp] theorem State.enterBusy_rc (k : After) (s : State) : (s.enterBusy k).rc = 0 := rfl
@[simp] theorem State.enterBusy_after (k : After) (s : State) : (s.enterBusy k).after = k := rfl
@[simp] theorem State.enterBusy_phase (k : After) (s : State) : (s.enterBusy k).phase = .busy := rfl
@[simp] theorem State.enterBusy_err (k : After) (s : State) : (s.enterBusy k).err = s.err := rfl
@[simp] theorem State.enterBusy_ecode (k : After) (s : State) : (s.enterBusy k).ecode = s.ecode := rfl
@[simp] theorem State.enterBusy_dout (k : After) (s : State) : (s.enterBusy k).dout = s.dout := rfl
@[simp] theorem State.enterBusy_cfg (k : After) (s : State) : (s.enterBusy k).cfg = s.cfg := rfl
@[simp] theorem State.enterBusy_host (k : After) (s : State) : (s.enterBusy k).host = s.host := rfl
@[simp] theorem State.enterBusy_faultLog (k : After) (s : State) : (s.enterBusy k).faultLog = s.faultLog := rfl
@[simp] theorem State.enterBusy_doutWritten (k : After) (s : State) :
    (s.enterBusy k).doutWritten = s.doutWritten := rfl
@[simp] theorem State.enterBusy_doutMisused (k : After) (s : State) :
    (s.enterBusy k).doutMisused = s.doutMisused := rfl

/-! Fields after a successful read (R32). -/

@[simp] theorem State.writeDout_H (v : Word) (s : State) : (s.writeDout v).H = s.H := rfl
@[simp] theorem State.writeDout_a (v : Word) (s : State) : (s.writeDout v).a = s.a := rfl
@[simp] theorem State.writeDout_b (v : Word) (s : State) : (s.writeDout v).b = s.b := rfl
@[simp] theorem State.writeDout_c (v : Word) (s : State) : (s.writeDout v).c = s.c := rfl
@[simp] theorem State.writeDout_d (v : Word) (s : State) : (s.writeDout v).d = s.d := rfl
@[simp] theorem State.writeDout_e (v : Word) (s : State) : (s.writeDout v).e = s.e := rfl
@[simp] theorem State.writeDout_W (v : Word) (s : State) : (s.writeDout v).W = s.W := rfl
@[simp] theorem State.writeDout_M (v : Word) (s : State) : (s.writeDout v).M = s.M := rfl
@[simp] theorem State.writeDout_p (v : Word) (s : State) : (s.writeDout v).p = s.p := rfl
@[simp] theorem State.writeDout_L (v : Word) (s : State) : (s.writeDout v).L = s.L := rfl
@[simp] theorem State.writeDout_rc (v : Word) (s : State) : (s.writeDout v).rc = s.rc := rfl
@[simp] theorem State.writeDout_after (v : Word) (s : State) : (s.writeDout v).after = s.after := rfl
@[simp] theorem State.writeDout_phase (v : Word) (s : State) : (s.writeDout v).phase = s.phase := rfl
@[simp] theorem State.writeDout_err (v : Word) (s : State) : (s.writeDout v).err = s.err := rfl
@[simp] theorem State.writeDout_ecode (v : Word) (s : State) : (s.writeDout v).ecode = s.ecode := rfl
@[simp] theorem State.writeDout_dout (v : Word) (s : State) : (s.writeDout v).dout = v := rfl
@[simp] theorem State.writeDout_cfg (v : Word) (s : State) : (s.writeDout v).cfg = s.cfg := rfl
@[simp] theorem State.writeDout_host (v : Word) (s : State) : (s.writeDout v).host = s.host := rfl
@[simp] theorem State.writeDout_faultLog (v : Word) (s : State) : (s.writeDout v).faultLog = s.faultLog := rfl
@[simp] theorem State.writeDout_doutWritten (v : Word) (s : State) : (s.writeDout v).doutWritten = true := rfl
@[simp] theorem State.writeDout_doutMisused (v : Word) (s : State) : (s.writeDout v).doutMisused = s.doutMisused := rfl

/-! Fields after INIT's effect (R105). -/

@[simp] theorem State.startMessage_H (s : State) : s.startMessage.H = initialHash := rfl
@[simp] theorem State.startMessage_a (s : State) : s.startMessage.a = s.a := rfl
@[simp] theorem State.startMessage_b (s : State) : s.startMessage.b = s.b := rfl
@[simp] theorem State.startMessage_c (s : State) : s.startMessage.c = s.c := rfl
@[simp] theorem State.startMessage_d (s : State) : s.startMessage.d = s.d := rfl
@[simp] theorem State.startMessage_e (s : State) : s.startMessage.e = s.e := rfl
@[simp] theorem State.startMessage_W (s : State) : s.startMessage.W = s.W := rfl
@[simp] theorem State.startMessage_M (s : State) : s.startMessage.M = Vector.replicate 16 0 := rfl
@[simp] theorem State.startMessage_p (s : State) : s.startMessage.p = 0 := rfl
@[simp] theorem State.startMessage_L (s : State) : s.startMessage.L = 0 := rfl
@[simp] theorem State.startMessage_rc (s : State) : s.startMessage.rc = s.rc := rfl
@[simp] theorem State.startMessage_after (s : State) : s.startMessage.after = s.after := rfl
@[simp] theorem State.startMessage_phase (s : State) : s.startMessage.phase = .absorb := rfl
@[simp] theorem State.startMessage_err (s : State) : s.startMessage.err = false := rfl
@[simp] theorem State.startMessage_ecode (s : State) : s.startMessage.ecode = .none := rfl
@[simp] theorem State.startMessage_dout (s : State) : s.startMessage.dout = s.dout := rfl
@[simp] theorem State.startMessage_cfg (s : State) : s.startMessage.cfg = s.cfg := rfl
@[simp] theorem State.startMessage_host (s : State) : s.startMessage.host = s.host := rfl
@[simp] theorem State.startMessage_faultLog (s : State) : s.startMessage.faultLog = s.faultLog := rfl
@[simp] theorem State.startMessage_doutWritten (s : State) : s.startMessage.doutWritten = s.doutWritten := rfl
@[simp] theorem State.startMessage_doutMisused (s : State) : s.startMessage.doutMisused = s.doutMisused := rfl

/-! Fields after reset (R230, R43). -/

@[simp] theorem State.resetCore_H (s : State) : s.resetCore.H = State.reset.H := rfl
@[simp] theorem State.resetCore_a (s : State) : s.resetCore.a = State.reset.a := rfl
@[simp] theorem State.resetCore_b (s : State) : s.resetCore.b = State.reset.b := rfl
@[simp] theorem State.resetCore_c (s : State) : s.resetCore.c = State.reset.c := rfl
@[simp] theorem State.resetCore_d (s : State) : s.resetCore.d = State.reset.d := rfl
@[simp] theorem State.resetCore_e (s : State) : s.resetCore.e = State.reset.e := rfl
@[simp] theorem State.resetCore_W (s : State) : s.resetCore.W = State.reset.W := rfl
@[simp] theorem State.resetCore_M (s : State) : s.resetCore.M = State.reset.M := rfl
@[simp] theorem State.resetCore_p (s : State) : s.resetCore.p = State.reset.p := rfl
@[simp] theorem State.resetCore_L (s : State) : s.resetCore.L = State.reset.L := rfl
@[simp] theorem State.resetCore_rc (s : State) : s.resetCore.rc = State.reset.rc := rfl
@[simp] theorem State.resetCore_after (s : State) : s.resetCore.after = State.reset.after := rfl
@[simp] theorem State.resetCore_phase (s : State) : s.resetCore.phase = State.reset.phase := rfl
@[simp] theorem State.resetCore_err (s : State) : s.resetCore.err = State.reset.err := rfl
@[simp] theorem State.resetCore_ecode (s : State) : s.resetCore.ecode = State.reset.ecode := rfl
@[simp] theorem State.resetCore_dout (s : State) : s.resetCore.dout = State.reset.dout := rfl
@[simp] theorem State.resetCore_cfg (s : State) : s.resetCore.cfg = s.cfg := rfl
@[simp] theorem State.resetCore_host (s : State) : s.resetCore.host = s.host := rfl
@[simp] theorem State.resetCore_faultLog (s : State) : s.resetCore.faultLog = s.faultLog := rfl
@[simp] theorem State.resetCore_doutWritten (s : State) : s.resetCore.doutWritten = State.reset.doutWritten := rfl
@[simp] theorem State.resetCore_doutMisused (s : State) : s.resetCore.doutMisused = s.doutMisused := rfl

/-! Fields after LOAD (R154). -/

@[simp] theorem engineLoad_H (s : State) : (engineLoad s).H = s.H := rfl
@[simp] theorem engineLoad_a (s : State) : (engineLoad s).a = s.H[0] := rfl
@[simp] theorem engineLoad_b (s : State) : (engineLoad s).b = s.H[1] := rfl
@[simp] theorem engineLoad_c (s : State) : (engineLoad s).c = s.H[2] := rfl
@[simp] theorem engineLoad_d (s : State) : (engineLoad s).d = s.H[3] := rfl
@[simp] theorem engineLoad_e (s : State) : (engineLoad s).e = s.H[4] := rfl
@[simp] theorem engineLoad_W (s : State) : (engineLoad s).W = loadSchedule s.M s.W := rfl
@[simp] theorem engineLoad_M (s : State) : (engineLoad s).M = s.M := rfl
@[simp] theorem engineLoad_p (s : State) : (engineLoad s).p = s.p := rfl
@[simp] theorem engineLoad_L (s : State) : (engineLoad s).L = s.L := rfl
@[simp] theorem engineLoad_rc (s : State) : (engineLoad s).rc = 1 := rfl
@[simp] theorem engineLoad_after (s : State) : (engineLoad s).after = s.after := rfl
@[simp] theorem engineLoad_phase (s : State) : (engineLoad s).phase = s.phase := rfl
@[simp] theorem engineLoad_err (s : State) : (engineLoad s).err = s.err := rfl
@[simp] theorem engineLoad_ecode (s : State) : (engineLoad s).ecode = s.ecode := rfl
@[simp] theorem engineLoad_dout (s : State) : (engineLoad s).dout = s.dout := rfl
@[simp] theorem engineLoad_cfg (s : State) : (engineLoad s).cfg = s.cfg := rfl
@[simp] theorem engineLoad_host (s : State) : (engineLoad s).host = s.host := rfl
@[simp] theorem engineLoad_faultLog (s : State) : (engineLoad s).faultLog = s.faultLog := rfl
@[simp] theorem engineLoad_doutWritten (s : State) : (engineLoad s).doutWritten = s.doutWritten := rfl
@[simp] theorem engineLoad_doutMisused (s : State) : (engineLoad s).doutMisused = s.doutMisused := rfl

/-! Fields after ROUND(t) (R156). -/

@[simp] theorem engineRound_H (t : Fin 80) (s : State) : (engineRound t s).H = s.H := rfl
@[simp] theorem engineRound_a (t : Fin 80) (s : State) :
    (engineRound t s).a = roundValue t s.a s.b s.c s.d s.e (roundWord s.W t) := rfl
@[simp] theorem engineRound_b (t : Fin 80) (s : State) : (engineRound t s).b = s.a := rfl
@[simp] theorem engineRound_c (t : Fin 80) (s : State) : (engineRound t s).c = rotl s.b 30 := rfl
@[simp] theorem engineRound_d (t : Fin 80) (s : State) : (engineRound t s).d = s.c := rfl
@[simp] theorem engineRound_e (t : Fin 80) (s : State) : (engineRound t s).e = s.d := rfl
@[simp] theorem engineRound_W (t : Fin 80) (s : State) :
    (engineRound t s).W = if 16 ≤ t.val then s.W.set t.val (roundWord s.W t) else s.W := rfl
@[simp] theorem engineRound_M (t : Fin 80) (s : State) : (engineRound t s).M = s.M := rfl
@[simp] theorem engineRound_p (t : Fin 80) (s : State) : (engineRound t s).p = s.p := rfl
@[simp] theorem engineRound_L (t : Fin 80) (s : State) : (engineRound t s).L = s.L := rfl
@[simp] theorem engineRound_rc (t : Fin 80) (s : State) : (engineRound t s).rc = ⟨t.val + 2, by omega⟩ := rfl
@[simp] theorem engineRound_after (t : Fin 80) (s : State) : (engineRound t s).after = s.after := rfl
@[simp] theorem engineRound_phase (t : Fin 80) (s : State) : (engineRound t s).phase = s.phase := rfl
@[simp] theorem engineRound_err (t : Fin 80) (s : State) : (engineRound t s).err = s.err := rfl
@[simp] theorem engineRound_ecode (t : Fin 80) (s : State) : (engineRound t s).ecode = s.ecode := rfl
@[simp] theorem engineRound_dout (t : Fin 80) (s : State) : (engineRound t s).dout = s.dout := rfl
@[simp] theorem engineRound_cfg (t : Fin 80) (s : State) : (engineRound t s).cfg = s.cfg := rfl
@[simp] theorem engineRound_host (t : Fin 80) (s : State) : (engineRound t s).host = s.host := rfl
@[simp] theorem engineRound_faultLog (t : Fin 80) (s : State) : (engineRound t s).faultLog = s.faultLog := rfl
@[simp] theorem engineRound_doutWritten (t : Fin 80) (s : State) :
    (engineRound t s).doutWritten = s.doutWritten := rfl
@[simp] theorem engineRound_doutMisused (t : Fin 80) (s : State) :
    (engineRound t s).doutMisused = s.doutMisused := rfl

/-! Fields after a use of the dout port by the host (R44), and the port itself (R41). -/

@[simp] theorem State.useDout_H (s : State) : s.useDout.H = s.H := rfl
@[simp] theorem State.useDout_a (s : State) : s.useDout.a = s.a := rfl
@[simp] theorem State.useDout_b (s : State) : s.useDout.b = s.b := rfl
@[simp] theorem State.useDout_c (s : State) : s.useDout.c = s.c := rfl
@[simp] theorem State.useDout_d (s : State) : s.useDout.d = s.d := rfl
@[simp] theorem State.useDout_e (s : State) : s.useDout.e = s.e := rfl
@[simp] theorem State.useDout_W (s : State) : s.useDout.W = s.W := rfl
@[simp] theorem State.useDout_M (s : State) : s.useDout.M = s.M := rfl
@[simp] theorem State.useDout_p (s : State) : s.useDout.p = s.p := rfl
@[simp] theorem State.useDout_L (s : State) : s.useDout.L = s.L := rfl
@[simp] theorem State.useDout_rc (s : State) : s.useDout.rc = s.rc := rfl
@[simp] theorem State.useDout_after (s : State) : s.useDout.after = s.after := rfl
@[simp] theorem State.useDout_phase (s : State) : s.useDout.phase = s.phase := rfl
@[simp] theorem State.useDout_err (s : State) : s.useDout.err = s.err := rfl
@[simp] theorem State.useDout_ecode (s : State) : s.useDout.ecode = s.ecode := rfl
@[simp] theorem State.useDout_dout (s : State) : s.useDout.dout = s.dout := rfl
@[simp] theorem State.useDout_cfg (s : State) : s.useDout.cfg = s.cfg := rfl
@[simp] theorem State.useDout_host (s : State) : s.useDout.host = s.host := rfl
@[simp] theorem State.useDout_faultLog (s : State) : s.useDout.faultLog = s.faultLog := rfl
@[simp] theorem State.useDout_doutWritten (s : State) : s.useDout.doutWritten = s.doutWritten := rfl
@[simp] theorem State.useDout_doutMisused (s : State) :
    s.useDout.doutMisused = (s.doutMisused || !s.doutWritten) := rfl
@[simp] theorem State.doutPort_eq_dout (s : State) : s.doutPort = s.dout := rfl

end Sys2Proof.Machine
end

