-- ==== Sys2Proof/Laws/Fields.lean ====
section
/-! SUPPORT. Fields after the packer's and the engine's updates that branch: WRBYTE, FINAL, FOLD with block completion. -/

namespace Sys2Proof.Machine

open Sys2Proof

/-! Fields after WRBYTE's effect (R126). -/

@[simp] theorem State.appendByte_H (b : Byte) (pos : Fin 64) (s : State) :
    (s.appendByte b pos).H = s.H := by
  simp only [State.appendByte]; split <;> rfl
@[simp] theorem State.appendByte_a (b : Byte) (pos : Fin 64) (s : State) :
    (s.appendByte b pos).a = s.a := by
  simp only [State.appendByte]; split <;> rfl
@[simp] theorem State.appendByte_b (b : Byte) (pos : Fin 64) (s : State) :
    (s.appendByte b pos).b = s.b := by
  simp only [State.appendByte]; split <;> rfl
@[simp] theorem State.appendByte_c (b : Byte) (pos : Fin 64) (s : State) :
    (s.appendByte b pos).c = s.c := by
  simp only [State.appendByte]; split <;> rfl
@[simp] theorem State.appendByte_d (b : Byte) (pos : Fin 64) (s : State) :
    (s.appendByte b pos).d = s.d := by
  simp only [State.appendByte]; split <;> rfl
@[simp] theorem State.appendByte_e (b : Byte) (pos : Fin 64) (s : State) :
    (s.appendByte b pos).e = s.e := by
  simp only [State.appendByte]; split <;> rfl
@[simp] theorem State.appendByte_W (b : Byte) (pos : Fin 64) (s : State) :
    (s.appendByte b pos).W = s.W := by
  simp only [State.appendByte]; split <;> rfl
@[simp] theorem State.appendByte_M (b : Byte) (pos : Fin 64) (s : State) :
    (s.appendByte b pos).M = setBlockByte s.M pos b := by
  simp only [State.appendByte]; split <;> rfl
@[simp] theorem State.appendByte_p (b : Byte) (pos : Fin 64) (s : State) :
    (s.appendByte b pos).p = pos.succ := by
  simp only [State.appendByte]; split <;> rfl
@[simp] theorem State.appendByte_L (b : Byte) (pos : Fin 64) (s : State) :
    (s.appendByte b pos).L = s.L + 1 := by
  simp only [State.appendByte]; split <;> rfl
@[simp] theorem State.appendByte_rc (b : Byte) (pos : Fin 64) (s : State) :
    (s.appendByte b pos).rc = if pos.val + 1 = 64 then 0 else s.rc := by
  simp only [State.appendByte]; split <;> rfl
@[simp] theorem State.appendByte_after (b : Byte) (pos : Fin 64) (s : State) :
    (s.appendByte b pos).after = if pos.val + 1 = 64 then .absorb else s.after := by
  simp only [State.appendByte]; split <;> rfl
@[simp] theorem State.appendByte_phase (b : Byte) (pos : Fin 64) (s : State) :
    (s.appendByte b pos).phase = if pos.val + 1 = 64 then .busy else s.phase := by
  simp only [State.appendByte]; split <;> rfl
@[simp] theorem State.appendByte_err (b : Byte) (pos : Fin 64) (s : State) :
    (s.appendByte b pos).err = s.err := by
  simp only [State.appendByte]; split <;> rfl
@[simp] theorem State.appendByte_ecode (b : Byte) (pos : Fin 64) (s : State) :
    (s.appendByte b pos).ecode = s.ecode := by
  simp only [State.appendByte]; split <;> rfl
@[simp] theorem State.appendByte_dout (b : Byte) (pos : Fin 64) (s : State) :
    (s.appendByte b pos).dout = s.dout := by
  simp only [State.appendByte]; split <;> rfl
@[simp] theorem State.appendByte_cfg (b : Byte) (pos : Fin 64) (s : State) :
    (s.appendByte b pos).cfg = s.cfg := by
  simp only [State.appendByte]; split <;> rfl
@[simp] theorem State.appendByte_host (b : Byte) (pos : Fin 64) (s : State) :
    (s.appendByte b pos).host = s.host := by
  simp only [State.appendByte]; split <;> rfl
@[simp] theorem State.appendByte_faultLog (b : Byte) (pos : Fin 64) (s : State) :
    (s.appendByte b pos).faultLog = s.faultLog := by
  simp only [State.appendByte]; split <;> rfl
@[simp] theorem State.appendByte_doutWritten (b : Byte) (pos : Fin 64) (s : State) :
    (s.appendByte b pos).doutWritten = s.doutWritten := by
  simp only [State.appendByte]; split <;> rfl
@[simp] theorem State.appendByte_doutMisused (b : Byte) (pos : Fin 64) (s : State) :
    (s.appendByte b pos).doutMisused = s.doutMisused := by
  simp only [State.appendByte]; split <;> rfl

/-! Fields after FINAL's effect (R127). -/

@[simp] theorem State.padMessage_H (pos : Fin 64) (s : State) :
    (s.padMessage pos).H = s.H := by
  simp only [State.padMessage]; split <;> rfl
@[simp] theorem State.padMessage_a (pos : Fin 64) (s : State) :
    (s.padMessage pos).a = s.a := by
  simp only [State.padMessage]; split <;> rfl
@[simp] theorem State.padMessage_b (pos : Fin 64) (s : State) :
    (s.padMessage pos).b = s.b := by
  simp only [State.padMessage]; split <;> rfl
@[simp] theorem State.padMessage_c (pos : Fin 64) (s : State) :
    (s.padMessage pos).c = s.c := by
  simp only [State.padMessage]; split <;> rfl
@[simp] theorem State.padMessage_d (pos : Fin 64) (s : State) :
    (s.padMessage pos).d = s.d := by
  simp only [State.padMessage]; split <;> rfl
@[simp] theorem State.padMessage_e (pos : Fin 64) (s : State) :
    (s.padMessage pos).e = s.e := by
  simp only [State.padMessage]; split <;> rfl
@[simp] theorem State.padMessage_W (pos : Fin 64) (s : State) :
    (s.padMessage pos).W = s.W := by
  simp only [State.padMessage]; split <;> rfl
@[simp] theorem State.padMessage_M (pos : Fin 64) (s : State) :
    (s.padMessage pos).M = if pos.val ≤ 55 then setLength s.cfg.lenPolicy s.L (setBlockByte s.M pos 0x80)
      else setBlockByte s.M pos 0x80 := by
  simp only [State.padMessage]; split <;> rfl
@[simp] theorem State.padMessage_p (pos : Fin 64) (s : State) :
    (s.padMessage pos).p = s.p := by
  simp only [State.padMessage]; split <;> rfl
@[simp] theorem State.padMessage_L (pos : Fin 64) (s : State) :
    (s.padMessage pos).L = s.L := by
  simp only [State.padMessage]; split <;> rfl
@[simp] theorem State.padMessage_rc (pos : Fin 64) (s : State) :
    (s.padMessage pos).rc = 0 := by
  simp only [State.padMessage]; split <;> rfl
@[simp] theorem State.padMessage_after (pos : Fin 64) (s : State) :
    (s.padMessage pos).after = if pos.val ≤ 55 then .done else .lenblk := by
  simp only [State.padMessage]; split <;> rfl
@[simp] theorem State.padMessage_phase (pos : Fin 64) (s : State) :
    (s.padMessage pos).phase = .busy := by
  simp only [State.padMessage]; split <;> rfl
@[simp] theorem State.padMessage_err (pos : Fin 64) (s : State) :
    (s.padMessage pos).err = s.err := by
  simp only [State.padMessage]; split <;> rfl
@[simp] theorem State.padMessage_ecode (pos : Fin 64) (s : State) :
    (s.padMessage pos).ecode = s.ecode := by
  simp only [State.padMessage]; split <;> rfl
@[simp] theorem State.padMessage_dout (pos : Fin 64) (s : State) :
    (s.padMessage pos).dout = s.dout := by
  simp only [State.padMessage]; split <;> rfl
@[simp] theorem State.padMessage_cfg (pos : Fin 64) (s : State) :
    (s.padMessage pos).cfg = s.cfg := by
  simp only [State.padMessage]; split <;> rfl
@[simp] theorem State.padMessage_host (pos : Fin 64) (s : State) :
    (s.padMessage pos).host = s.host := by
  simp only [State.padMessage]; split <;> rfl
@[simp] theorem State.padMessage_faultLog (pos : Fin 64) (s : State) :
    (s.padMessage pos).faultLog = s.faultLog := by
  simp only [State.padMessage]; split <;> rfl
@[simp] theorem State.padMessage_doutWritten (pos : Fin 64) (s : State) :
    (s.padMessage pos).doutWritten = s.doutWritten := by
  simp only [State.padMessage]; split <;> rfl
@[simp] theorem State.padMessage_doutMisused (pos : Fin 64) (s : State) :
    (s.padMessage pos).doutMisused = s.doutMisused := by
  simp only [State.padMessage]; split <;> rfl

/-! Fields after FOLD and block completion (R158, R159). -/

@[simp] theorem engineFold_H (s : State) :
    (engineFold s).H = foldHash s.H s.a s.b s.c s.d s.e := by
  simp only [engineFold, completeBlock]; split <;> rfl
@[simp] theorem engineFold_a (s : State) :
    (engineFold s).a = s.a := by
  simp only [engineFold, completeBlock]; split <;> rfl
@[simp] theorem engineFold_b (s : State) :
    (engineFold s).b = s.b := by
  simp only [engineFold, completeBlock]; split <;> rfl
@[simp] theorem engineFold_c (s : State) :
    (engineFold s).c = s.c := by
  simp only [engineFold, completeBlock]; split <;> rfl
@[simp] theorem engineFold_d (s : State) :
    (engineFold s).d = s.d := by
  simp only [engineFold, completeBlock]; split <;> rfl
@[simp] theorem engineFold_e (s : State) :
    (engineFold s).e = s.e := by
  simp only [engineFold, completeBlock]; split <;> rfl
@[simp] theorem engineFold_W (s : State) :
    (engineFold s).W = s.W := by
  simp only [engineFold, completeBlock]; split <;> rfl
@[simp] theorem engineFold_M (s : State) :
    (engineFold s).M = match s.after with
      | .absorb => Vector.replicate 16 0
      | .lenblk => lengthBlock s.cfg.lenPolicy s.L
      | .done => s.M := by
  cases h : s.after <;> simp [engineFold, completeBlock, h]
@[simp] theorem engineFold_p (s : State) :
    (engineFold s).p = if s.after = .absorb then 0 else s.p := by
  cases h : s.after <;> simp [engineFold, completeBlock, h]
@[simp] theorem engineFold_L (s : State) :
    (engineFold s).L = s.L := by
  simp only [engineFold, completeBlock]; split <;> rfl
@[simp] theorem engineFold_rc (s : State) :
    (engineFold s).rc = 0 := by
  simp only [engineFold, completeBlock]; split <;> rfl
@[simp] theorem engineFold_after (s : State) :
    (engineFold s).after = if s.after = .lenblk then .done else s.after := by
  cases h : s.after <;> simp [engineFold, completeBlock, h]
@[simp] theorem engineFold_phase (s : State) :
    (engineFold s).phase = match s.after with
      | .absorb => .absorb
      | .lenblk => s.phase
      | .done => .done := by
  cases h : s.after <;> simp [engineFold, completeBlock, h]
@[simp] theorem engineFold_err (s : State) :
    (engineFold s).err = s.err := by
  simp only [engineFold, completeBlock]; split <;> rfl
@[simp] theorem engineFold_ecode (s : State) :
    (engineFold s).ecode = s.ecode := by
  simp only [engineFold, completeBlock]; split <;> rfl
@[simp] theorem engineFold_dout (s : State) :
    (engineFold s).dout = s.dout := by
  simp only [engineFold, completeBlock]; split <;> rfl
@[simp] theorem engineFold_cfg (s : State) :
    (engineFold s).cfg = s.cfg := by
  simp only [engineFold, completeBlock]; split <;> rfl
@[simp] theorem engineFold_host (s : State) :
    (engineFold s).host = s.host := by
  simp only [engineFold, completeBlock]; split <;> rfl
@[simp] theorem engineFold_faultLog (s : State) :
    (engineFold s).faultLog = s.faultLog := by
  simp only [engineFold, completeBlock]; split <;> rfl
@[simp] theorem engineFold_doutWritten (s : State) :
    (engineFold s).doutWritten = s.doutWritten := by
  simp only [engineFold, completeBlock]; split <;> rfl
@[simp] theorem engineFold_doutMisused (s : State) :
    (engineFold s).doutMisused = s.doutMisused := by
  simp only [engineFold, completeBlock]; split <;> rfl

end Sys2Proof.Machine
end

