-- ==== Sys2Proof/Laws/Step.lean ====
section
/-! SUPPORT. What a command, an engine step and a step of the machine can do, said once: later proofs take a step apart by
cases on these. -/

namespace Sys2Proof.Machine

open Sys2Proof Host

/-- Everything a command can do when it answers a next state (R102 to R105, R126, R127, R184 to R186). -/
inductive CommandEffect : Instr → State → State → Prop
  /-- held in BUSY (R101) -/
  | held (i : Instr) {s : State} (hp : s.phase = .busy) : CommandEffect i s s
  | nop {s : State} (hp : s.phase ≠ .busy) : CommandEffect .nop s s
  | init {s : State} (hp : s.phase ≠ .busy) : CommandEffect .init s s.startMessage
  | wrbyte (b : Byte) {s : State} (hp : s.phase = .absorb) (hl : s.L ≠ s.cfg.maxLen) (pos : Fin 64)
      (hpos : s.p.val = pos.val) : CommandEffect (.wrbyte b) s (s.appendByte b pos)
  | final {s : State} (hp : s.phase = .absorb) (pos : Fin 64) (hpos : s.p.val = pos.val) :
      CommandEffect .final s (s.padMessage pos)
  | rdword (k : Byte) {s : State} (hp : s.phase = .done) (h : k.toNat < 5) :
      CommandEffect (.rdword k) s (s.writeDout s.H[k.toNat])
  | rdbyte (j : Byte) {s : State} (hp : s.phase = .done) (h : j.toNat < 20) :
      CommandEffect (.rdbyte j) s (s.writeDout (zext32 (digestByte s.H ⟨j.toNat, h⟩)))
  | rdhex (i : Byte) {s : State} (hp : s.phase = .done) (h : i.toNat < 40) :
      CommandEffect (.rdhex i) s (s.writeDout (zext32 (hexCode (hexNibble s.H ⟨i.toNat, h⟩))))
  /-- WRBYTE or FINAL outside ABSORB (R102) -/
  | packerSequence (i : Instr) {s : State} (hi : (∃ b, i = .wrbyte b) ∨ i = .final)
      (hp : s.phase = .idle ∨ s.phase = .done) : CommandEffect i s (s.raise .sequence)
  /-- a read outside DONE (R102) -/
  | readSequence (i : Instr) {s : State} (hi : ∃ n, i = .rdword n ∨ i = .rdbyte n ∨ i = .rdhex n)
      (hp : s.phase = .idle ∨ s.phase = .absorb) : CommandEffect i s (s.raise .sequence)
  /-- a read index beyond its range (R103) -/
  | range (i : Instr) {s : State} (hp : s.phase = .done)
      (hi : (∃ k, i = .rdword k ∧ 4 < k.toNat) ∨ (∃ j, i = .rdbyte j ∧ 19 < j.toNat) ∨
        (∃ n, i = .rdhex n ∧ 39 < n.toNat)) : CommandEffect i s (s.raise .range)
  /-- WRBYTE at the counter's maximum (R103) -/
  | length (b : Byte) {s : State} (hp : s.phase = .absorb) (hl : s.L = s.cfg.maxLen) :
      CommandEffect (.wrbyte b) s (s.raise .length)

theorem atPosition_next {s t : State} {rule : Fin 64 → Result} (h : atPosition s rule = .next t) :
    ∃ pos : Fin 64, s.p.val = pos.val ∧ rule pos = .next t := by
  unfold atPosition at h
  split at h
  · exact ⟨_, rfl, h⟩
  · cases h

theorem atPosition_eq {s : State} {rule : Fin 64 → Result} (pos : Fin 64) (h : s.p.val = pos.val) :
    atPosition s rule = rule pos := by
  have := pos.isLt
  unfold atPosition
  rw [dif_pos (by omega)]
  congr 1
  exact Fin.ext h

/-- The one inversion of `exec`. -/
theorem exec_effect {i : Instr} {s t : State} (h : exec i s = .next t) : CommandEffect i s t := by
  have next_inj : ∀ {u v : State}, (Outcome.next u : Result) = .next v → u = v := fun e => by cases e; rfl
  cases i with
  | nop =>
    simp only [exec, execNop, whenLegal] at h
    cases hp : s.phase <;> simp only [hp, anyReadyPhase] at h
    case busy => cases next_inj h; exact .held _ hp
    all_goals
      cases next_inj h
      exact .nop (by simp [hp])
  | init =>
    simp only [exec, execInit, whenLegal] at h
    cases hp : s.phase <;> simp only [hp, anyReadyPhase] at h
    case busy => cases next_inj h; exact .held _ hp
    all_goals
      cases next_inj h
      exact .init (by simp [hp])
  | wrbyte b =>
    simp only [exec, execWrbyte, whenLegal] at h
    cases hp : s.phase <;> simp only [hp, onlyAbsorb] at h
    case busy => cases next_inj h; exact .held _ hp
    case absorb =>
      split at h
      · cases next_inj h; exact .length b hp ‹_›
      · obtain ⟨pos, hpos, h⟩ := atPosition_next h
        cases next_inj h; exact .wrbyte b hp ‹_› pos hpos
    all_goals
      cases next_inj h
      exact .packerSequence _ (.inl ⟨b, rfl⟩) (by simp [hp])
  | final =>
    simp only [exec, execFinal, whenLegal] at h
    cases hp : s.phase <;> simp only [hp, onlyAbsorb] at h
    case busy => cases next_inj h; exact .held _ hp
    case absorb =>
      obtain ⟨pos, hpos, h⟩ := atPosition_next h
      cases next_inj h; exact .final hp pos hpos
    all_goals
      cases next_inj h
      exact .packerSequence _ (.inr rfl) (by simp [hp])
  | rdword k =>
    simp only [exec, execRdword, whenLegal] at h
    cases hp : s.phase <;> simp only [hp, onlyDone] at h
    case busy => cases next_inj h; exact .held _ hp
    case done =>
      simp only [readInto, wordIndex] at h
      by_cases hk : k.toNat < 5
      · simp only [hk, dite_true] at h
        cases next_inj h; exact .rdword k hp hk
      · simp only [hk, dite_false] at h
        cases next_inj h; exact .range _ hp (.inl ⟨k, rfl, by omega⟩)
    all_goals
      cases next_inj h
      exact .readSequence _ ⟨k, .inl rfl⟩ (by simp [hp])
  | rdbyte j =>
    simp only [exec, execRdbyte, whenLegal] at h
    cases hp : s.phase <;> simp only [hp, onlyDone] at h
    case busy => cases next_inj h; exact .held _ hp
    case done =>
      simp only [readInto, byteIndex] at h
      by_cases hk : j.toNat < 20
      · simp only [hk, dite_true] at h
        cases next_inj h; exact .rdbyte j hp hk
      · simp only [hk, dite_false] at h
        cases next_inj h; exact .range _ hp (.inr (.inl ⟨j, rfl, by omega⟩))
    all_goals
      cases next_inj h
      exact .readSequence _ ⟨j, .inr (.inl rfl)⟩ (by simp [hp])
  | rdhex n =>
    simp only [exec, execRdhex, whenLegal] at h
    cases hp : s.phase <;> simp only [hp, onlyDone] at h
    case busy => cases next_inj h; exact .held _ hp
    case done =>
      simp only [readInto, charIndex] at h
      by_cases hk : n.toNat < 40
      · simp only [hk, dite_true] at h
        cases next_inj h; exact .rdhex n hp hk
      · simp only [hk, dite_false] at h
        cases next_inj h; exact .range _ hp (.inr (.inr ⟨n, rfl, by omega⟩))
    all_goals
      cases next_inj h
      exact .readSequence _ ⟨n, .inr (.inr rfl)⟩ (by simp [hp])

/-- Everything an engine step can do (R154 to R159, R166). -/
inductive EngineEffect : State → State → Prop
  | load {s : State} (hrc : s.rc.val = 0) : EngineEffect s (engineLoad s)
  | round {s : State} (t : Fin 80) (hrc : s.rc.val = t.val + 1) : EngineEffect s (engineRound t s)
  | fold {s : State} (hrc : s.rc.val = 81) : EngineEffect s (engineFold s)

theorem engineStep_effect (s : State) : EngineEffect s (engineStep s) := by
  have hlt := s.rc.isLt
  unfold engineStep
  split
  · exact .load ‹_›
  · split
    · exact .round _ (by simp; omega)
    · exact .fold (by omega)

theorem engineStep_load {s : State} (h : s.rc.val = 0) : engineStep s = engineLoad s := by
  simp [engineStep, h]

theorem engineStep_round {s : State} (t : Fin 80) (h : s.rc.val = t.val + 1) :
    engineStep s = engineRound t s := by
  have ht := t.isLt
  have h0 : ¬ s.rc.val = 0 := by omega
  have h1 : s.rc.val ≤ 80 := by omega
  simp only [engineStep, h0, h1, if_false, dite_true]
  congr 1
  exact Fin.ext (by simp; omega)

theorem engineStep_fold {s : State} (h : s.rc.val = 81) : engineStep s = engineFold s := by
  simp [engineStep, h]

/-- No engine step touches the ports, the error record or the model's own fields, nor the length (R163, R32, R33). -/
theorem engineStep_frame (s : State) :
    (engineStep s).L = s.L ∧ (engineStep s).err = s.err ∧ (engineStep s).ecode = s.ecode ∧
    (engineStep s).dout = s.dout ∧ (engineStep s).cfg = s.cfg ∧ (engineStep s).host = s.host ∧
    (engineStep s).faultLog = s.faultLog ∧ (engineStep s).doutWritten = s.doutWritten ∧
    (engineStep s).doutMisused = s.doutMisused := by
  have h := engineStep_effect s
  generalize engineStep s = t at h
  cases h
  all_goals simp

/-- An engine step reads nothing of the host and of its use of the dout port (R164). -/
theorem engineStep_hostSide (s : State) (h : List HostMove) (m : Bool) :
    engineStep { s with host := h, doutMisused := m } = { engineStep s with host := h, doutMisused := m } := by
  unfold engineStep
  split
  · rfl
  · split
    · rfl
    · unfold engineFold completeBlock
      cases s.after <;> rfl

/-- A step with reset low that accepts no command leaves the host's later moves and the record of U2 so. -/
inductive HostSide (s : State) : List HostMove → Bool → Prop
  /-- nothing is presented any more, or a command is held (R101) -/
  | held (hr : s.host = [] ∨ ∃ w r, s.host = .command w :: r) : HostSide s s.host s.doutMisused
  | wait {rest : List HostMove} (hh : s.host = .wait :: rest) : HostSide s rest s.doutMisused
  | useDout {rest : List HostMove} (hh : s.host = .useDout :: rest) :
      HostSide s rest (s.doutMisused || !s.doutWritten)

/-- Everything a step can do when it answers a next state (R17, R100, R101, R164, R230). -/
inductive StepEffect : State → State → Prop
  | reset {s : State} (rest : List HostMove) (hh : s.host = .reset :: rest) :
      StepEffect s ({ s with host := rest } : State).resetCore
  /-- BUSY: the engine's step -/
  | engine {s : State} (hp : s.phase = .busy) {rest : List HostMove} {m : Bool} (hh : HostSide s rest m) :
      StepEffect s { engineStep s with host := rest, doutMisused := m }
  /-- ready and nothing presented -/
  | quiet {s : State} (hp : s.phase ≠ .busy) {rest : List HostMove} {m : Bool} (hh : HostSide s rest m)
      (hc : ∀ w r, s.host ≠ .command w :: r) : StepEffect s { s with host := rest, doutMisused := m }
  | illegal {s : State} (hp : s.phase ≠ .busy) (w : CmdWord) (rest : List HostMove)
      (hh : s.host = .command w :: rest) (why : IllegalReason) (hd : decode w = .illegal why) :
      StepEffect s (({ s with host := rest } : State).raise .illegal)
  | command {s t : State} (hp : s.phase ≠ .busy) (w : CmdWord) (rest : List HostMove)
      (hh : s.host = .command w :: rest) (i : Instr) (hd : decode w = .cmd i)
      (he : CommandEffect i { s with host := rest } t) : StepEffect s t

/-- A step with reset low that accepts no command: the engine's in BUSY, none else (R164; log 8), and the host's side. -/
theorem step_internal {s : State} (hr : ∀ r, s.host ≠ .reset :: r)
    (hc : s.phase = .busy ∨ ∀ w r, s.host ≠ .command w :: r) :
    ∃ rest m, HostSide s rest m ∧ step s = .next { internalStep s with host := rest, doutMisused := m } := by
  have frame : s = { s with host := s.host, doutMisused := s.doutMisused } := rfl
  have pass : ∀ h m, internalStep { s with host := h, doutMisused := m } =
      { internalStep s with host := h, doutMisused := m } := by
    intro h m
    unfold internalStep
    split
    · exact engineStep_hostSide s h m
    · rfl
  rcases hh : s.host with _ | ⟨m, rest⟩
  · refine ⟨s.host, s.doutMisused, .held (.inl hh), ?_⟩
    simp only [step, machineStep, hh]
    rw [← pass, ← hh, ← frame]
  · cases m with
    | reset => exact absurd hh (hr rest)
    | wait =>
      refine ⟨rest, s.doutMisused, .wait hh, ?_⟩
      simp only [step, machineStep, hh]
      rw [← pass]
    | useDout =>
      refine ⟨rest, s.doutMisused || !s.doutWritten, .useDout hh, ?_⟩
      simp only [step, machineStep, hh]
      rw [← pass]; rfl
    | command w =>
      have hp : s.phase = .busy := hc.resolve_right (fun h => h w rest hh)
      refine ⟨s.host, s.doutMisused, .held (.inr ⟨w, rest, hh⟩), ?_⟩
      have e : internalStep s = engineStep s := if_pos hp
      simp only [step, machineStep, hh, hp, if_true]
      rw [← e, ← hh, ← pass, ← frame]

/-- The one inversion of `step`. -/
theorem step_effect {s t : State} (h : step s = .next t) : StepEffect s t := by
  by_cases hr : ∃ r, s.host = .reset :: r
  · obtain ⟨r, hr⟩ := hr
    simp only [step, machineStep, hr] at h
    cases h
    exact .reset r hr
  · by_cases hp : s.phase = .busy
    · obtain ⟨rest, m, hs, he⟩ := step_internal (fun r e => hr ⟨r, e⟩) (.inl hp)
      rw [he] at h
      cases h
      rw [show internalStep s = engineStep s from if_pos hp]
      exact .engine hp hs
    · by_cases hc : ∃ w r, s.host = .command w :: r
      · obtain ⟨w, r, hc⟩ := hc
        simp only [step, machineStep, hc, hp, if_false] at h
        unfold execute at h
        split at h
        · cases h
          exact .illegal hp w r hc _ ‹_›
        · exact .command hp w r hc _ ‹_› (exec_effect h)
      · obtain ⟨rest, m, hs, he⟩ := step_internal (fun r e => hr ⟨r, e⟩) (.inr (fun w r e => hc ⟨w, r, e⟩))
        rw [he] at h
        cases h
        rw [show internalStep s = s from if_neg hp]
        exact .quiet hp hs (fun w r e => hc ⟨w, r, e⟩)

/-- A step of a ready core with a presented word (R100). -/
theorem step_command {s : State} {w : CmdWord} {rest : List HostMove} (hp : s.phase ≠ .busy)
    (hh : s.host = .command w :: rest) : step s = execute w { s with host := rest } := by
  simp [step, machineStep, hh, hp]

/-- A step in BUSY with a presented word (R101). -/
theorem step_busy {s : State} {w : CmdWord} {rest : List HostMove} (hp : s.phase = .busy)
    (hh : s.host = .command w :: rest) : step s = .next (engineStep s) := by
  simp [step, machineStep, hh, hp]

/-- INIT in a ready phase (R105). -/
theorem exec_init {s : State} (hp : s.phase ≠ .busy) : exec .init s = .next s.startMessage := by
  cases hq : s.phase <;> simp [exec, execInit, whenLegal, hq, anyReadyPhase]
  exact absurd hq hp

theorem step_reset {s : State} {rest : List HostMove} (hh : s.host = .reset :: rest) :
    step s = .next ({ s with host := rest } : State).resetCore := by
  simp only [step, machineStep, hh]

theorem step_nothing {s : State} (hh : s.host = []) : step s = .next (internalStep s) := by
  simp only [step, machineStep, hh]

theorem step_wait {s : State} {rest : List HostMove} (hh : s.host = .wait :: rest) :
    step s = .next (internalStep { s with host := rest }) := by
  simp only [step, machineStep, hh]

theorem step_useDout {s : State} {rest : List HostMove} (hh : s.host = .useDout :: rest) :
    step s = .next (internalStep ({ s with host := rest } : State).useDout) := by
  simp only [step, machineStep, hh]

end Sys2Proof.Machine
end

