-- ==== Sys2Proof/Laws/Engine.lean ====
section
/-! SUPPORT. The schedule (R141, R144), the engine's steps over one block (R154 to R160), and its run inside a step. -/

namespace Sys2Proof.Machine

open Sys2Proof Host

theorem expandWords_length (b : Vector Word 16) (n : Nat) : (expandWords b n).length = 16 + n := by
  induction n with
  | zero => simp [expandWords]
  | succ n ih => simp [expandWords, ih]; omega

theorem expandWords_stable (b : Vector Word 16) {n m i : Nat} (hnm : n ≤ m) (hi : i < 16 + n) :
    (expandWords b m).getD i 0 = (expandWords b n).getD i 0 := by
  induction m, hnm using Nat.le_induction with
  | base => rfl
  | succ m hm ih =>
    rw [← ih]
    simp only [expandWords]
    rw [List.getD_append _ _ _ _ (by rw [expandWords_length]; omega)]

/-- The block itself stands in the first sixteen words (R144). -/
theorem expandWords_copy (b : Vector Word 16) (n : Nat) {i : Nat} (hi : i < 16) :
    (expandWords b n).getD i 0 = b[i] := by
  rw [expandWords_stable b (n := 0) (by omega) (by omega)]
  simp [expandWords, List.getD, hi]

/-- Word `16 + n` is the recurrence over the words before it (R141). -/
theorem expandWords_next (b : Vector Word 16) {m n : Nat} (h : n < m) :
    (expandWords b m).getD (16 + n) 0 =
      scheduleWord ((expandWords b m).getD (n + 13) 0) ((expandWords b m).getD (n + 8) 0)
        ((expandWords b m).getD (n + 2) 0) ((expandWords b m).getD n 0) := by
  rw [expandWords_stable b (n := n + 1) (i := 16 + n) (by omega) (by omega),
    expandWords_stable b (n := n) (i := n + 13) (by omega) (by omega),
    expandWords_stable b (n := n) (i := n + 8) (by omega) (by omega),
    expandWords_stable b (n := n) (i := n + 2) (by omega) (by omega),
    expandWords_stable b (n := n) (i := n) (by omega) (by omega)]
  simp only [expandWords]
  rw [List.getD_append_right _ _ _ _ (by rw [expandWords_length]), expandWords_length, Nat.sub_self]
  rfl

theorem getElem_expand (b : Vector Word 16) (i : Nat) (hi : i < 80) :
    (expand b)[i] = (expandWords b 64).getD i 0 := by
  simp only [expand, Vector.getElem_ofFn]

theorem engineSteps_succ (n : Nat) (s : State) : engineSteps (n + 1) s = engineStep (engineSteps n s) := by
  induction n generalizing s with
  | zero => rfl
  | succ n ih => exact ih (engineStep s)

theorem engineSteps_add (m n : Nat) (s : State) : engineSteps (m + n) s = engineSteps n (engineSteps m s) := by
  induction m generalizing s with
  | zero => simp [engineSteps]
  | succ m ih => rw [Nat.succ_add]; exact ih (engineStep s)

/-- The working values after the first `n` rounds of the reference compression (R160). -/
def workingAfter (h : Vector Word 5) (block : Vector Word 16) (n : Nat) : Working :=
  ((List.finRange 80).take n).foldl (refRound (expand block)) ⟨h[0], h[1], h[2], h[3], h[4]⟩

theorem workingAfter_succ (h : Vector Word 5) (block : Vector Word 16) (t : Fin 80) :
    workingAfter h block (t.val + 1) = refRound (expand block) (workingAfter h block t.val) t := by
  have e : (List.finRange 80).take (t.val + 1) = (List.finRange 80).take t.val ++ [t] := by
    rw [List.take_add_one]; simp
  simp only [workingAfter, e, List.foldl_append, List.foldl_cons, List.foldl_nil]

theorem compress_eq (h : Vector Word 5) (block : Vector Word 16) :
    compress h block = foldHash h (workingAfter h block 80).a (workingAfter h block 80).b
      (workingAfter h block 80).c (workingAfter h block 80).d (workingAfter h block 80).e := by
  have e : (List.finRange 80).take 80 = List.finRange 80 := by rw [List.take_of_length_le]; simp
  simp [compress, workingAfter, e]

/-- The round's schedule word is the expanded one, when the words before it are (R142, R144). -/
theorem roundWord_eq_expand (block : Vector Word 16) (w : Vector Word 80) (t : Fin 80)
    (hw : ∀ i : Fin 80, i.val < max 16 t.val → w[i.val] = (expand block)[i.val]) :
    roundWord w t = (expand block)[t.val] := by
  have ht := t.isLt
  unfold roundWord
  split
  · rename_i h
    rw [hw ⟨t.val - 3, by omega⟩ (by simp; omega), hw ⟨t.val - 8, by omega⟩ (by simp; omega),
      hw ⟨t.val - 14, by omega⟩ (by simp; omega), hw ⟨t.val - 16, by omega⟩ (by simp; omega)]
    simp only [getElem_expand]
    obtain ⟨n, hn⟩ : ∃ n, t.val = 16 + n := ⟨t.val - 16, by omega⟩
    have next := expandWords_next block (m := 64) (n := n) (by omega)
    rw [show t.val - 3 = n + 13 by omega, show t.val - 8 = n + 8 by omega, show t.val - 14 = n + 2 by omega,
      show t.val - 16 = n by omega, hn]
    exact next.symm
  · exact hw t (by omega)

/-- What a round uses of the schedule: the words before it, and its own when LOAD gave it. -/
theorem roundWord_congr (w w' : Vector Word 80) (t : Fin 80)
    (h : ∀ i : Fin 80, i.val < max 16 t.val → w'[i.val] = w[i.val]) : roundWord w' t = roundWord w t := by
  have ht := t.isLt
  unfold roundWord
  split
  · rename_i h16
    rw [h ⟨t.val - 3, by omega⟩ (by simp; omega), h ⟨t.val - 8, by omega⟩ (by simp; omega),
      h ⟨t.val - 14, by omega⟩ (by simp; omega), h ⟨t.val - 16, by omega⟩ (by simp; omega)]
  · exact h t (by omega)

/-- LOAD and the first `n` rounds, in terms of the reference compression (R154 to R157, R160). -/
theorem engineSteps_rounds (s : State) (hrc : s.rc.val = 0) (n : Nat) (hn : n ≤ 80) :
    ∃ w : Vector Word 80, (∀ i : Fin 80, i.val < max 16 n → w[i.val] = (expand s.M)[i.val]) ∧
      engineSteps (n + 1) s = { s with
        W := w
        a := (workingAfter s.H s.M n).a
        b := (workingAfter s.H s.M n).b
        c := (workingAfter s.H s.M n).c
        d := (workingAfter s.H s.M n).d
        e := (workingAfter s.H s.M n).e
        rc := ⟨n + 1, by omega⟩ } := by
  induction n with
  | zero =>
    refine ⟨loadSchedule s.M s.W, ?_, ?_⟩
    · intro i hi
      have hi' : i.val < 16 := by simpa using hi
      rw [getElem_expand, expandWords_copy s.M 64 hi']
      simp [loadSchedule, hi']
    · show engineStep s = _
      rw [engineStep_load hrc]
      simp [engineLoad, workingAfter]
  | succ n ih =>
    obtain ⟨w, hw, he⟩ := ih (by omega)
    have hwt := roundWord_eq_expand s.M w ⟨n, by omega⟩ hw
    rw [engineSteps_succ, he, engineStep_round ⟨n, by omega⟩ rfl]
    refine ⟨if 16 ≤ n then w.set n (expand s.M)[n] else w, ?_, ?_⟩
    · intro i hi
      by_cases h : 16 ≤ n
      · simp only [h, if_true, Vector.getElem_set]
        split
        · rename_i e; simp only [e]
        · exact hw i (by omega)
      · simp only [h, if_false]
        exact hw i (by omega)
    · have hr := workingAfter_succ s.H s.M ⟨n, by omega⟩
      simp only at hr
      simp only [engineRound, hwt, hr, refRound]
      rfl

/-- One block, from LOAD to FOLD (R160). -/
theorem engineSteps_block (s : State) (hrc : s.rc.val = 0) :
    ∃ w : Vector Word 80, engineSteps 82 s = completeBlock { s with
        H := compress s.H s.M
        W := w
        a := (workingAfter s.H s.M 80).a
        b := (workingAfter s.H s.M 80).b
        c := (workingAfter s.H s.M 80).c
        d := (workingAfter s.H s.M 80).d
        e := (workingAfter s.H s.M 80).e
        rc := 81 } := by
  obtain ⟨w, -, he⟩ := engineSteps_rounds s hrc 80 (by omega)
  refine ⟨w, ?_⟩
  rw [engineSteps_succ, he, engineStep_fold rfl, compress_eq]
  rfl

/-- Inside a block the engine stays BUSY, counts, and keeps H. -/
theorem engineSteps_inside (s : State) (hrc : s.rc.val = 0) (k : Nat) (hk : k < 82) :
    (engineSteps k s).phase = s.phase ∧ (engineSteps k s).rc.val = k ∧ (engineSteps k s).H = s.H ∧
      (engineSteps k s).after = s.after := by
  cases k with
  | zero => exact ⟨rfl, hrc, rfl, rfl⟩
  | succ n =>
    obtain ⟨w, -, he⟩ := engineSteps_rounds s hrc n (by omega)
    rw [he]; exact ⟨rfl, rfl, rfl, rfl⟩

theorem steps_busy (n : Nat) (s : State) (w : CmdWord) (rest : List HostMove) (hh : s.host = .command w :: rest)
    (hb : ∀ k < n, (engineSteps k s).phase = .busy) : steps n s = .next (engineSteps n s) := by
  induction n generalizing s with
  | zero => rfl
  | succ n ih =>
    have h0 := hb 0 (by omega)
    simp only [steps, step_busy (s := s) h0 hh]
    apply ih
    · rw [(engineStep_frame s).2.2.2.2.2.1]; exact hh
    · intro k hk; exact hb (k+1) (by omega)
theorem engineSteps_host (n : Nat) (s : State) : (engineSteps n s).host = s.host := by
  induction n generalizing s with
  | zero => rfl
  | succ n ih => exact (ih (engineStep s)).trans (engineStep_frame s).2.2.2.2.2.1

theorem inside_from (s : State) (hp : s.phase = .busy) (k : Nat) (hk : s.rc.val + k < 82) :
    (engineSteps k s).phase = .busy ∧ (engineSteps k s).rc.val = s.rc.val + k ∧ (engineSteps k s).after = s.after := by
  induction k with
  | zero => exact ⟨hp, rfl, rfl⟩
  | succ k ih =>
    have ih := ih (by omega)
    rw [engineSteps_succ]
    have hx := engineStep_effect (engineSteps k s)
    generalize engineStep (engineSteps k s) = u at hx
    cases hx with
    | load h => simp [ih]; omega
    | round t h => simp [ih]; omega
    | fold h => omega

end Sys2Proof.Machine
end

