-- ==== Sys2Proof/Laws/Alike.lean ====
section
/-! SUPPORT. The relation of two states that no port can tell apart (R44, R45), and that every step keeps it. -/

namespace Sys2Proof.Machine

open Sys2Proof Host

/-- Two states that no port can tell apart from here on, `dout` aside: they agree on what R43 specifies, and on every
other element once the computation has set it. -/
structure Alike (s s' : State) : Prop where
  phase : s'.phase = s.phase
  err : s'.err = s.err
  ecode : s'.ecode = s.ecode
  cfg : s'.cfg = s.cfg
  host : s'.host = s.host
  started : s.phase ≠ .idle → s'.H = s.H ∧ s'.M = s.M ∧ s'.p = s.p ∧ s'.L = s.L
  running : s.phase = .busy → s'.rc = s.rc ∧ s'.after = s.after
  working : s.phase = .busy → 1 ≤ s.rc.val → s'.a = s.a ∧ s'.b = s.b ∧ s'.c = s.c ∧ s'.d = s.d ∧ s'.e = s.e
  schedule : s.phase = .busy → 1 ≤ s.rc.val →
    ∀ i : Fin 80, i.val < max 16 (s.rc.val - 1) → s'.W[i.val] = s.W[i.val]

theorem Alike.engineStep {s s' : State} (h : Alike s s') (hp : s.phase = .busy) :
    Alike (engineStep s) (engineStep s') := by
  have hs := h.started (by simp [hp])
  have hr := h.running hp
  have hx := engineStep_effect s
  have hp' : s'.phase = .busy := h.phase.trans hp
  generalize he : Sys2Proof.Machine.engineStep s = u at hx
  cases hx with
  | load h0 =>
    rw [engineStep_load (s := s') (by rw [hr.1]; exact h0)]
    refine ⟨by simp [hp, hp'], h.err, h.ecode, h.cfg, h.host, fun _ => ⟨hs.1, hs.2.1, hs.2.2.1, hs.2.2.2⟩, fun _ => ⟨rfl, hr.2⟩, ?_, ?_⟩
    · intro _ _; simp [hs.1]
    · intro _ _ i hi
      have : i.val < 16 := by simpa using hi
      simp [loadSchedule, this, hs.2.1]
  | round t ht =>
    have htl := t.isLt
    rw [engineStep_round (s := s') t (by rw [hr.1]; exact ht)]
    obtain ⟨ha, hb, hc, hd, he⟩ := h.working hp (by omega)
    have hw := h.schedule hp (by omega)
    have hrw := roundWord_congr s.W s'.W t (by intro i hi; exact hw i (by omega))
    refine ⟨by simp [hp, hp'], h.err, h.ecode, h.cfg, h.host, fun _ => ⟨hs.1, hs.2.1, hs.2.2.1, hs.2.2.2⟩, fun _ => ⟨rfl, hr.2⟩, ?_, ?_⟩
    · intro _ _; simp [ha, hb, hc, hd, he, hrw]
    · intro _ _ i hi
      simp at hi
      simp only [engineRound_W, hrw]
      split
      · simp only [Vector.getElem_set]
        split
        · rfl
        · exact hw i (by omega)
      · exact hw i (by omega)
  | fold h81 =>
    rw [engineStep_fold (s := s') (by rw [hr.1]; exact h81)]
    obtain ⟨ha, hb, hc, hd, he⟩ := h.working hp (by omega)
    refine ⟨by simp [hp, hp', hr.2], by simpa using h.err, by simpa using h.ecode, by simpa using h.cfg, by simpa using h.host, ?_, ?_, ?_, ?_⟩
    · intro _; simp [hs, ha, hb, hc, hd, he, hr.2, h.cfg]
    · intro _; simp [hr.2]
    · intro _ h1; simp at h1
    · intro _ h1; simp at h1

/-- Agreement on dout: whether a read has succeeded, and from then on what the register holds (R44). -/
structure DoutAlike (s s' : State) : Prop where
  written : s.doutWritten = s'.doutWritten
  dout : s.doutWritten = true → s.dout = s'.dout

/-- What a step keeps of an agreement on dout, or on the register alone. -/
structure KeepsDout (s s' t t' : State) : Prop where
  alike : DoutAlike s s' → DoutAlike t t'
  dout : s.dout = s'.dout → t.dout = t'.dout

theorem KeepsDout.of_frame {s s' t t' : State} (h1 : t.doutWritten = s.doutWritten) (h2 : t.dout = s.dout)
    (h3 : t'.doutWritten = s'.doutWritten) (h4 : t'.dout = s'.dout) : KeepsDout s s' t t' := by
  refine ⟨fun h => ⟨?_, ?_⟩, ?_⟩
  · rw [h1, h3]; exact h.written
  · rw [h1, h2, h4]; exact h.dout
  · rw [h2, h4]; exact id

theorem KeepsDout.of_same {s s' t t' : State} (h1 : t.doutWritten = t'.doutWritten) (h2 : t.dout = t'.dout) :
    KeepsDout s s' t t' := ⟨fun _ => ⟨h1, fun _ => h2⟩, fun _ => h2⟩

theorem Alike.raise {s s' : State} (h : Alike s s') (c : ErrCode) : Alike (s.raise c) (s'.raise c) := by
  refine ⟨h.phase, rfl, ?_, h.cfg, h.host, h.started, h.running, h.working, h.schedule⟩
  simp [h.err, h.ecode]

theorem Alike.exec {i : Instr} {s s' t : State} (h : Alike s s') (hp : s.phase ≠ .busy)
    (hx : exec i s = .next t) :
    ∃ t' : State, exec i s' = .next t' ∧ Alike t t' ∧ KeepsDout s s' t t' := by
  have hphase := h.phase
  cases exec_effect hx with
  | held _ hb => exact absurd hb hp
  | nop =>
    refine ⟨s', ?_, h, .of_frame rfl rfl rfl rfl⟩
    cases hq : s'.phase <;> simp [Machine.exec, execNop, whenLegal, hq, anyReadyPhase]
  | init =>
    refine ⟨s'.startMessage, ?_, ?_, ?_⟩
    · exact exec_init (by rw [hphase]; exact hp)
    · constructor <;> simp [h.cfg, h.host]
    · exact .of_frame (by simp) (by simp) (by simp) (by simp)
  | wrbyte b ha hl pos hpos =>
    have hs := h.started (by simp [ha])
    have hq : s'.phase = .absorb := hphase.trans ha
    refine ⟨s'.appendByte b pos, ?_, ?_, ?_⟩
    · have hl' : s'.L ≠ s'.cfg.maxLen := by rw [hs.2.2.2, h.cfg]; exact hl
      simp [Machine.exec, execWrbyte, whenLegal, hq, onlyAbsorb, hl', atPosition_eq (s := s') pos (by rw [hs.2.2.1]; exact hpos)]
    · refine ⟨by simp [hq, ha], by simpa using h.err, by simpa using h.ecode, by simpa using h.cfg, by simpa using h.host, ?_, ?_, ?_, ?_⟩
      · intro _; simp [hs]
      · intro hb
        by_cases h63 : pos.val + 1 = 64
        · simp [h63]
        · simp [h63, ha] at hb
      · intro hb h1
        by_cases h63 : pos.val + 1 = 64
        · simp [h63] at h1
        · simp [h63, ha] at hb
      · intro hb h1
        by_cases h63 : pos.val + 1 = 64
        · simp [h63] at h1
        · simp [h63, ha] at hb
    · exact .of_frame (by simp) (by simp) (by simp) (by simp)
  | final ha pos hpos =>
    have hs := h.started (by simp [ha])
    have hq : s'.phase = .absorb := hphase.trans ha
    refine ⟨s'.padMessage pos, ?_, ?_, ?_⟩
    · simp [Machine.exec, execFinal, whenLegal, hq, onlyAbsorb, atPosition_eq (s := s') pos (by rw [hs.2.2.1]; exact hpos)]
    · refine ⟨by simp, by simpa using h.err, by simpa using h.ecode, by simpa using h.cfg, by simpa using h.host, ?_, ?_, ?_, ?_⟩
      · intro _; simp [hs, h.cfg]
      · intro hb; simp
      · intro hb h1; simp at h1
      · intro hb h1; simp at h1
    · exact .of_frame (by simp) (by simp) (by simp) (by simp)
  | rdword k ha hk =>
    have hs := h.started (by simp [ha])
    refine ⟨s'.writeDout s'.H[k.toNat], ?_, ⟨h.phase, h.err, h.ecode, h.cfg, h.host, h.started, h.running, h.working, h.schedule⟩, ?_⟩
    · simp [Machine.exec, execRdword, whenLegal, hphase, ha, onlyDone, readInto, wordIndex, hk]
    · exact .of_same rfl (by simp [hs])
  | rdbyte k ha hk =>
    have hs := h.started (by simp [ha])
    refine ⟨s'.writeDout (zext32 (digestByte s'.H ⟨k.toNat, hk⟩)), ?_, ⟨h.phase, h.err, h.ecode, h.cfg, h.host, h.started, h.running, h.working, h.schedule⟩, ?_⟩
    · simp [Machine.exec, execRdbyte, whenLegal, hphase, ha, onlyDone, readInto, byteIndex, hk]
    · exact .of_same rfl (by simp [hs])
  | rdhex k ha hk =>
    have hs := h.started (by simp [ha])
    refine ⟨s'.writeDout (zext32 (hexCode (hexNibble s'.H ⟨k.toNat, hk⟩))), ?_, ⟨h.phase, h.err, h.ecode, h.cfg, h.host, h.started, h.running, h.working, h.schedule⟩, ?_⟩
    · simp [Machine.exec, execRdhex, whenLegal, hphase, ha, onlyDone, readInto, charIndex, hk]
    · exact .of_same rfl (by simp [hs])
  | packerSequence _ hi hq =>
    refine ⟨s'.raise .sequence, ?_, h.raise _, .of_frame rfl rfl rfl rfl⟩
    rcases hi with ⟨b, rfl⟩ | rfl <;> rcases hq with hq | hq <;>
      simp [Machine.exec, execWrbyte, execFinal, whenLegal, hphase, hq, onlyAbsorb]
  | readSequence _ hi hq =>
    refine ⟨s'.raise .sequence, ?_, h.raise _, .of_frame rfl rfl rfl rfl⟩
    rcases hi with ⟨b, rfl | rfl | rfl⟩ <;> rcases hq with hq | hq <;>
      simp [Machine.exec, execRdword, execRdbyte, execRdhex, whenLegal, hphase, hq, onlyDone]
  | range _ hq hi =>
    refine ⟨s'.raise .range, ?_, h.raise _, .of_frame rfl rfl rfl rfl⟩
    rcases hi with ⟨k, rfl, hk⟩ | ⟨k, rfl, hk⟩ | ⟨k, rfl, hk⟩
    · have : ¬ k.toNat < 5 := by omega
      simp [Machine.exec, execRdword, whenLegal, hphase, hq, onlyDone, readInto, wordIndex, this]
    · have : ¬ k.toNat < 20 := by omega
      simp [Machine.exec, execRdbyte, whenLegal, hphase, hq, onlyDone, readInto, byteIndex, this]
    · have : ¬ k.toNat < 40 := by omega
      simp [Machine.exec, execRdhex, whenLegal, hphase, hq, onlyDone, readInto, charIndex, this]
  | length b ha hl =>
    have hs := h.started (by simp [ha])
    refine ⟨s'.raise .length, ?_, h.raise _, .of_frame rfl rfl rfl rfl⟩
    have hl' : s'.L = s'.cfg.maxLen := by rw [hs.2.2.2, h.cfg]; exact hl
    simp [Machine.exec, execWrbyte, whenLegal, hphase, ha, onlyAbsorb, hl']

theorem Alike.withHost {s s' : State} (h : Alike s s') (rest : List HostMove) :
    Alike { s with host := rest } { s' with host := rest } :=
  ⟨h.phase, h.err, h.ecode, h.cfg, rfl, h.started, h.running, h.working, h.schedule⟩

theorem Alike.useDout {s s' : State} (h : Alike s s') : Alike s.useDout s'.useDout :=
  ⟨h.phase, h.err, h.ecode, h.cfg, h.host, h.started, h.running, h.working, h.schedule⟩

theorem Alike.internalStep {s s' : State} (h : Alike s s') : Alike (internalStep s) (internalStep s') ∧
    KeepsDout s s' (Machine.internalStep s) (Machine.internalStep s') := by
  unfold Machine.internalStep
  rw [h.phase]
  split
  · have f := engineStep_frame s
    have f' := engineStep_frame s'
    exact ⟨h.engineStep ‹_›, .of_frame f.2.2.2.2.2.2.2.1 f.2.2.2.1 f'.2.2.2.2.2.2.2.1 f'.2.2.2.1⟩
  · exact ⟨h, .of_frame rfl rfl rfl rfl⟩

theorem Alike.step {s s' t : State} (h : Alike s s') (hx : step s = .next t) :
    ∃ t' : State, step s' = .next t' ∧ Alike t t' ∧ KeepsDout s s' t t' := by
  rcases hh : s.host with _ | ⟨m, rest⟩ <;> have hh' := h.host <;> rw [hh] at hh'
  · rw [step_nothing hh] at hx
    cases hx
    exact ⟨_, step_nothing hh', h.internalStep⟩
  · cases m with
    | reset =>
      rw [step_reset hh] at hx
      cases hx
      exact ⟨_, step_reset hh', by constructor <;> simp [h.cfg], .of_same rfl rfl⟩
    | wait =>
      rw [step_wait hh] at hx
      cases hx
      obtain ⟨h1, h2⟩ := (h.withHost rest).internalStep
      exact ⟨_, step_wait hh', h1, ⟨fun a => h2.alike ⟨a.written, a.dout⟩, h2.dout⟩⟩
    | useDout =>
      rw [step_useDout hh] at hx
      cases hx
      obtain ⟨h1, h2⟩ := (h.withHost rest).useDout.internalStep
      exact ⟨_, step_useDout hh', h1, ⟨fun a => h2.alike ⟨a.written, a.dout⟩, h2.dout⟩⟩
    | command w =>
      by_cases hp : s.phase = .busy
      · have hp' : s'.phase = .busy := h.phase.trans hp
        rw [step_busy hp hh] at hx
        cases hx
        have hi := h.internalStep
        rw [show Machine.internalStep s = Machine.engineStep s from if_pos hp,
          show Machine.internalStep s' = Machine.engineStep s' from if_pos hp'] at hi
        exact ⟨_, step_busy hp' hh', hi⟩
      · have hp' : s'.phase ≠ .busy := by rw [h.phase]; exact hp
        rw [step_command hp hh] at hx
        rw [step_command hp' hh']
        unfold execute at hx ⊢
        split at hx
        · cases hx
          exact ⟨_, rfl, (h.withHost rest).raise _, .of_frame rfl rfl rfl rfl⟩
        · obtain ⟨t', h1, h2, h3⟩ := (h.withHost rest).exec hp hx
          exact ⟨t', h1, h2, ⟨fun a => h3.alike ⟨a.written, a.dout⟩, h3.dout⟩⟩

theorem Alike.statusPort {s s' : State} (h : Alike s s') : s'.statusPort = s.statusPort := by
  simp [State.statusPort, State.ready, h.phase, h.err, h.ecode]

end Sys2Proof.Machine
end

