-- ==== Sys2Proof/Laws/Words.lean ====
section
/-! SUPPORT. Lanes of a word and bytes of a block, bit by bit (R15, R50). -/

namespace Sys2Proof.Machine

open Sys2Proof

theorem lane_getLsbD (w : Word) (k : Fin 4) (i : Nat) (hi : i < 8) :
    (lane w k).getLsbD i = w.getLsbD (24 - 8 * k.val + i) := by
  simp [lane, hi]

theorem ff_getLsbD (i : Nat) : (0xFF#32).getLsbD i = decide (i < 8) := by
  by_cases h : i < 32
  · have : ∀ i : Fin 32, (0xFF#32).getLsbD i.val = decide (i.val < 8) := by decide
    exact this ⟨i, h⟩
  · rw [BitVec.getLsbD_of_ge _ _ (by omega)]; simp; omega

theorem setLane_getLsbD (w : Word) (k : Fin 4) (b : Byte) (i : Nat) (hi : i < 32) :
    (setLane w k b).getLsbD i =
      if 24 - 8 * k.val ≤ i ∧ i < 32 - 8 * k.val then b.getLsbD (i - (24 - 8 * k.val)) else w.getLsbD i := by
  have hk := k.isLt
  simp only [setLane, zext32, BitVec.getLsbD_or, BitVec.getLsbD_and, BitVec.getLsbD_not, BitVec.getLsbD_shiftLeft,
    BitVec.getLsbD_setWidth, ff_getLsbD, hi, decide_true, Bool.true_and]
  by_cases h1 : i < 24 - 8 * k.val
  · have : ¬ (24 - 8 * k.val ≤ i) := by omega
    simp [h1, this]
  · by_cases h2 : i < 32 - 8 * k.val
    · have e1 : i - (24 - 8 * k.val) < 8 := by omega
      have e2 : i - (24 - 8 * k.val) < 32 := by omega
      have e3 : 24 - 8 * k.val ≤ i := by omega
      simp [h1, h2, e1, e2, e3]
    · have e1 : ¬ (i - (24 - 8 * k.val) < 8) := by omega
      have := BitVec.getLsbD_of_ge b (i - (24 - 8 * k.val)) (by omega)
      simp [h1, h2, e1, this]

theorem lane_setLane (w : Word) (k k' : Fin 4) (b : Byte) :
    lane (setLane w k b) k' = if k' = k then b else lane w k' := by
  have hk := k.isLt
  have hk' := k'.isLt
  apply BitVec.eq_of_getLsbD_eq
  intro i hi
  rw [lane_getLsbD _ _ _ hi, setLane_getLsbD _ _ _ _ (by omega)]
  by_cases h : k' = k
  · subst h
    have e : 24 - 8 * k'.val ≤ 24 - 8 * k'.val + i ∧ 24 - 8 * k'.val + i < 32 - 8 * k'.val := by omega
    simp [e]
  · have hv : k'.val ≠ k.val := fun e => h (Fin.ext e)
    have e : ¬ (24 - 8 * k.val ≤ 24 - 8 * k'.val + i ∧ 24 - 8 * k'.val + i < 32 - 8 * k.val) := by omega
    simp only [e, h, if_false]
    rw [lane_getLsbD _ _ _ hi]

theorem word_ext_of_lanes {v w : Word} (h : ∀ k, lane v k = lane w k) : v = w := by
  apply BitVec.eq_of_getLsbD_eq
  intro i hi
  have e := congrArg (fun x : Byte => x.getLsbD (i % 8)) (h ⟨3 - i / 8, by omega⟩)
  simp only [lane_getLsbD _ _ _ (Nat.mod_lt i (by omega : 8 > 0))] at e
  have : 24 - 8 * (3 - i / 8) + i % 8 = i := by omega
  rwa [this] at e

theorem blockByte_setBlockByte (m : Vector Word 16) (i j : Fin 64) (b : Byte) :
    blockByte (setBlockByte m i b) j = if j = i then b else blockByte m j := by
  have hi := i.isLt
  have hj := j.isLt
  simp only [blockByte, setBlockByte, Vector.getElem_set]
  by_cases hw : i.val / 4 = j.val / 4
  · simp only [hw, if_true, lane_setLane]
    by_cases h : j = i
    · subst h; simp
    · have : Fin.ofNat 4 j.val ≠ Fin.ofNat 4 i.val := by
        intro e
        have := congrArg Fin.val e
        simp at this
        exact h (Fin.ext (by omega))
      rw [if_neg this, if_neg h]
  · have h : j ≠ i := by rintro rfl; exact hw rfl
    simp [hw, h]

theorem block_ext {m n : Vector Word 16} (h : ∀ j, blockByte m j = blockByte n j) : m = n := by
  apply Vector.ext
  intro i hi
  apply word_ext_of_lanes
  intro k
  have hk := k.isLt
  have e := h ⟨4 * i + k.val, by omega⟩
  have h1 : (4 * i + k.val) / 4 = i := by omega
  have h2 : Fin.ofNat 4 (4 * i + k.val) = k := Fin.ext (by simp)
  simpa only [blockByte, h1, h2] using e

theorem blockByte_zero (j : Fin 64) : blockByte (Vector.replicate 16 0) j = 0 := by
  simp [blockByte, lane]
end Sys2Proof.Machine
end

