-- ==== Sys2Proof/Laws/Pad.lean ====
section
/-! SUPPORT. The padded stream byte by byte (R120 to R125), and the blocks the packer builds as blocks of Pad (R127 to
R129). -/

namespace Sys2Proof.Machine

open Sys2Proof

theorem lane_or (x y : Word) (k : Fin 4) : lane (x ||| y) k = lane x k ||| lane y k := by
  apply BitVec.eq_of_getLsbD_eq
  intro i hi
  simp only [BitVec.getLsbD_or, lane_getLsbD _ _ _ hi]

theorem lane_shifted_byte (b : Byte) (m k : Fin 4) :
    lane (zext32 b <<< (24 - 8 * m.val)) k = if k = m then b else 0 := by
  have hz : (zext32 b <<< (24 - 8 * m.val)) = setLane 0 m b := by
    simp [setLane]
  rw [hz, lane_setLane]
  simp [lane]

/-- Byte `i` of a word sequence, big-endian (R50). -/
def streamByte (w : List Word) (i : Nat) : Byte := lane (w.getD (i / 4) 0) (Fin.ofNat 4 i)

theorem orByte_length (w : List Word) (i : Nat) (b : Byte) : (orByte w i b).length = w.length := by
  simp [orByte]

theorem streamByte_orByte (w : List Word) (i q : Nat) (b : Byte) (hi : i / 4 < w.length) :
    streamByte (orByte w i b) q = if q = i then streamByte w q ||| b else streamByte w q := by
  have hm : i % 4 = (Fin.ofNat 4 i).val := rfl
  simp only [streamByte, orByte, List.getD_eq_getElem?_getD, List.getElem?_modify]
  by_cases hq : i / 4 = q / 4
  · have hq' : q / 4 < w.length := by omega
    simp only [if_pos hq, List.getElem?_eq_getElem hq', Option.map_some, Option.getD_some, Option.map_eq_map]
    rw [lane_or, hm, lane_shifted_byte]
    by_cases he : q = i
    · subst he; simp
    · have hf : Fin.ofNat 4 q ≠ Fin.ofNat 4 i := by
        intro e
        have e' : q % 4 = i % 4 := congrArg Fin.val e
        omega
      rw [if_neg hf, if_neg he]; simp
  · have he : q ≠ i := by rintro rfl; exact hq rfl
    simp only [if_neg hq]; rw [if_neg he]; simp

theorem packBytes_length (msg : List Byte) (i : Nat) (w : List Word) : (packBytes msg i w).length = w.length := by
  induction msg generalizing i w with
  | nil => rfl
  | cons b bs ih => rw [packBytes, ih, orByte_length]

theorem streamByte_packBytes (msg : List Byte) (i : Nat) (w : List Word) (hlen : i + msg.length ≤ 4 * w.length)
    (hz : ∀ q, i ≤ q → streamByte w q = 0) (q : Nat) :
    streamByte (packBytes msg i w) q =
      if i ≤ q ∧ q < i + msg.length then msg.getD (q - i) 0 else streamByte w q := by
  induction msg generalizing i w with
  | nil =>
    have : ¬ (i ≤ q ∧ q < i) := by omega
    simp [packBytes, this]
  | cons b bs ih =>
    have hl : i + (bs.length + 1) ≤ 4 * w.length := by simpa using hlen
    have hi : i / 4 < w.length := by omega
    rw [packBytes, ih (i + 1) (orByte w i b) (by rw [orByte_length]; omega)
      (by intro r hr; rw [streamByte_orByte _ _ _ _ hi, if_neg (by omega)]; exact hz r (by omega))]
    rw [streamByte_orByte _ _ _ _ hi]
    simp only [List.length_cons]
    by_cases h1 : q = i
    · subst h1
      rw [hz q (by omega)]
      simp
    · by_cases h2 : i + 1 ≤ q ∧ q < i + 1 + bs.length
      · obtain ⟨r, hr⟩ : ∃ r, q - i = r + 1 := ⟨q - i - 1, by omega⟩
        have hr' : q - (i + 1) = r := by omega
        have h3 : i ≤ q ∧ q < i + (bs.length + 1) := by omega
        simp [h2, h3, hr, hr']
      · have h3 : ¬ (i ≤ q ∧ q < i + (bs.length + 1)) := by omega
        rw [if_neg h2, if_neg h1, if_neg h3]

theorem padWords_length (policy : LenPolicy) (msg : List Byte) :
    (padWords policy msg).length = 16 * blockCount msg.length := by
  simp [padWords, orByte_length, packBytes_length]

theorem streamByte_set (w : List Word) (n : Nat) (v : Word) (q : Nat) (hn : n < w.length) :
    streamByte (w.set n v) q = if q / 4 = n then lane v (Fin.ofNat 4 q) else streamByte w q := by
  simp only [streamByte, List.getD_eq_getElem?_getD, List.getElem?_set]
  by_cases h : n = q / 4
  · subst h; simp [hn]
  · have h' : ¬ q / 4 = n := fun e => h e.symm
    simp [h, h']

theorem streamByte_padWords (policy : LenPolicy) (msg : List Byte) (q : Nat) :
    streamByte (padWords policy msg) q =
      if q < msg.length then msg.getD q 0
      else if q = msg.length then 0x80
      else if q < 64 * blockCount msg.length - 8 then 0
      else if q < 64 * blockCount msg.length - 4 then lane (lenHi policy msg.length) (Fin.ofNat 4 q)
      else if q < 64 * blockCount msg.length then lane (lenLo msg.length) (Fin.ofNat 4 q)
      else 0 := by
  have hn : msg.length + 9 ≤ 64 * blockCount msg.length := by unfold blockCount; omega
  have hzero : ∀ q, streamByte (List.replicate (16 * blockCount msg.length) (0 : Word)) q = 0 := by
    intro q
    have : (List.replicate (16 * blockCount msg.length) (0 : Word)).getD (q / 4) 0 = 0 := by
      simp only [List.getD_eq_getElem?_getD, List.getElem?_replicate]; split <;> rfl
    simp only [streamByte, this]
    simp [lane]
  simp only [padWords]
  rw [streamByte_set _ _ _ _ (by simp [orByte_length, packBytes_length]; omega),
    streamByte_set _ _ _ _ (by simp [orByte_length, packBytes_length]; omega),
    streamByte_orByte _ _ _ _ (by simp [packBytes_length]; omega),
    streamByte_packBytes _ _ _ (by simp; omega) (fun q _ => hzero q), hzero]
  by_cases c1 : q < msg.length
  · have a1 : ¬ q / 4 = 16 * blockCount msg.length - 2 := by omega
    have a2 : ¬ q / 4 = 16 * blockCount msg.length - 1 := by omega
    have a3 : ¬ q = msg.length := by omega
    simp [c1, a1, a2, a3]
  · by_cases c2 : q = msg.length
    · have a1 : ¬ msg.length / 4 = 16 * blockCount msg.length - 2 := by omega
      have a2 : ¬ msg.length / 4 = 16 * blockCount msg.length - 1 := by omega
      simp [c2, a1, a2]
    · by_cases c3 : q < 64 * blockCount msg.length - 8
      · have a1 : ¬ q / 4 = 16 * blockCount msg.length - 2 := by omega
        have a2 : ¬ q / 4 = 16 * blockCount msg.length - 1 := by omega
        simp [c1, c2, c3, a1, a2]
      · by_cases c4 : q < 64 * blockCount msg.length - 4
        · have a1 : q / 4 = 16 * blockCount msg.length - 2 := by omega
          rw [if_pos a1]; simp only [c1, c2, c3, c4, if_true, if_false]
        · have a1 : ¬ q / 4 = 16 * blockCount msg.length - 2 := by omega
          by_cases c5 : q < 64 * blockCount msg.length
          · have a2 : q / 4 = 16 * blockCount msg.length - 1 := by omega
            rw [if_neg a1, if_pos a2]; simp only [c1, c2, c3, c4, c5, if_true, if_false]
          · have a2 : ¬ q / 4 = 16 * blockCount msg.length - 1 := by omega
            simp [c1, c2, c3, c4, c5, a1, a2]

theorem blockByte_wordBlock (w : List Word) (k : Nat) (j : Fin 64) :
    blockByte (wordBlock w k) j = streamByte w (64 * k + j.val) := by
  have hj := j.isLt
  have e1 : (64 * k + j.val) / 4 = 16 * k + j.val / 4 := by omega
  have e2 : Fin.ofNat 4 (64 * k + j.val) = Fin.ofNat 4 j.val := by
    apply Fin.ext; show (64 * k + j.val) % 4 = j.val % 4; omega
  simp only [blockByte, wordBlock, Vector.getElem_ofFn, streamByte, e1, e2]

theorem padBlocks_get (policy : LenPolicy) (msg : List Byte) (k : Nat) (hk : k < blockCount msg.length) :
    (padBlocks policy msg)[k]? = some (wordBlock (padWords policy msg) k) := by
  simp [padBlocks, hk]

/-- Data block `k` of a message: its bytes, 0 past the end. -/
def dataBlock (msg : List Byte) (k : Nat) : Vector Word 16 :=
  wordBlock (packBytes msg 0 (List.replicate msg.length 0)) k

theorem blockByte_dataBlock (msg : List Byte) (k : Nat) (j : Fin 64) :
    blockByte (dataBlock msg k) j = msg.getD (64 * k + j.val) 0 := by
  have hzero : ∀ q, streamByte (List.replicate msg.length (0 : Word)) q = 0 := by
    intro q
    have : (List.replicate msg.length (0 : Word)).getD (q / 4) 0 = 0 := by
      simp only [List.getD_eq_getElem?_getD, List.getElem?_replicate]; split <;> rfl
    simp only [streamByte, this]
    simp [lane]
  rw [dataBlock, blockByte_wordBlock, streamByte_packBytes _ _ _ (by simp; omega) (fun q _ => hzero q), hzero]
  split
  · simp
  · rw [List.getD_eq_default]; omega

/-- H after the first `n` data blocks of a message. -/
def hashOver (msg : List Byte) (n : Nat) : Vector Word 5 :=
  ((List.range n).map (dataBlock msg)).foldl compress initialHash

theorem dataBlock_append (msg : List Byte) (b : Byte) (k : Nat) (hk : k < msg.length / 64) :
    dataBlock (msg ++ [b]) k = dataBlock msg k := by
  apply block_ext
  intro j
  have := j.isLt
  rw [blockByte_dataBlock, blockByte_dataBlock, List.getD_append _ _ _ _ (by omega)]

theorem hashOver_append (msg : List Byte) (b : Byte) (n : Nat) (hn : n ≤ msg.length / 64) :
    hashOver (msg ++ [b]) n = hashOver msg n := by
  unfold hashOver
  refine congrArg (List.foldl compress initialHash) (List.map_congr_left ?_)
  intro k hk
  exact dataBlock_append msg b k (by simp at hk; omega)

theorem hashOver_succ (msg : List Byte) (n : Nat) :
    hashOver msg (n + 1) = compress (hashOver msg n) (dataBlock msg n) := by
  simp [hashOver, List.range_succ]

theorem dataBlock_eq_pad (policy : LenPolicy) (msg : List Byte) (k : Nat) (hk : k < msg.length / 64) :
    dataBlock msg k = wordBlock (padWords policy msg) k := by
  apply block_ext
  intro j
  have := j.isLt
  rw [blockByte_dataBlock, blockByte_wordBlock, streamByte_padWords, if_pos (by omega)]

theorem blockByte_set (m : Vector Word 16) (i : Nat) (hi : i < 16) (v : Word) (j : Fin 64) :
    blockByte (m.set i v) j = if j.val / 4 = i then lane v (Fin.ofNat 4 j.val) else blockByte m j := by
  simp only [blockByte, Vector.getElem_set]
  by_cases h : i = j.val / 4
  · simp [h]
  · have h' : ¬ j.val / 4 = i := fun e => h e.symm
    simp [h, h']

theorem blockByte_setLength (policy : LenPolicy) (len : Nat) (m : Vector Word 16) (j : Fin 64) :
    blockByte (setLength policy len m) j =
      if 60 ≤ j.val then lane (lenLo len) (Fin.ofNat 4 j.val)
      else if 56 ≤ j.val then lane (lenHi policy len) (Fin.ofNat 4 j.val)
      else blockByte m j := by
  have hj := j.isLt
  simp only [setLength, blockByte_set]
  by_cases h1 : 60 ≤ j.val
  · have a1 : j.val / 4 = 15 := by omega
    simp [h1, a1]
  · by_cases h2 : 56 ≤ j.val
    · have a1 : j.val / 4 = 14 := by omega
      simp [h1, h2, a1]
    · have a1 : ¬ j.val / 4 = 14 := by omega
      have a2 : ¬ j.val / 4 = 15 := by omega
      simp [h1, h2, a1, a2]

theorem laneIndex (k : Nat) (j : Fin 64) : Fin.ofNat 4 (64 * k + j.val) = Fin.ofNat 4 j.val := by
  apply Fin.ext; show (64 * k + j.val) % 4 = j.val % 4; omega

/-- FINAL's block is the block of Pad that holds the pad byte (R127, R123, R125). -/
theorem finalBlock_eq_pad (policy : LenPolicy) (msg : List Byte) (m : Vector Word 16) (pos : Fin 64)
    (hpos : pos.val = msg.length % 64)
    (hm : ∀ j : Fin 64, blockByte m j = msg.getD (64 * (msg.length / 64) + j.val) 0) :
    (if pos.val ≤ 55 then setLength policy msg.length (setBlockByte m pos 0x80) else setBlockByte m pos 0x80) =
      wordBlock (padWords policy msg) (msg.length / 64) := by
  apply block_ext
  intro j
  have hj := j.isLt
  rw [blockByte_wordBlock, streamByte_padWords, laneIndex]
  have key : blockByte (setBlockByte m pos 0x80) j =
      if 64 * (msg.length / 64) + j.val < msg.length then msg.getD (64 * (msg.length / 64) + j.val) 0
      else if 64 * (msg.length / 64) + j.val = msg.length then 0x80 else 0 := by
    rw [blockByte_setBlockByte, hm]
    by_cases h : j = pos
    · have e : 64 * (msg.length / 64) + j.val = msg.length := by rw [h, hpos]; omega
      simp [h]
      rw [if_neg (by rw [← h]; omega), if_pos (by rw [← h]; exact e)]
    · have hv : j.val ≠ msg.length % 64 := fun e => h (Fin.ext (e.trans hpos.symm))
      have ne : 64 * (msg.length / 64) + j.val ≠ msg.length := by omega
      rw [if_neg h, if_neg ne]
      split
      · rfl
      · rw [List.getD_eq_default]; omega
  by_cases h55 : pos.val ≤ 55
  · have hb : blockCount msg.length = msg.length / 64 + 1 := by unfold blockCount; omega
    rw [if_pos h55, blockByte_setLength, key, hb]
    by_cases c1 : 60 ≤ j.val
    · rw [if_pos c1, if_neg (by omega), if_neg (by omega), if_neg (by omega), if_neg (by omega), if_pos (by omega)]
    · rw [if_neg c1]
      by_cases c2 : 56 ≤ j.val
      · rw [if_pos c2, if_neg (by omega), if_neg (by omega), if_neg (by omega), if_pos (by omega)]
      · rw [if_neg c2]
        split
        · rfl
        · split
          · rfl
          · rw [if_pos (by omega)]
  · have hb : blockCount msg.length = msg.length / 64 + 2 := by unfold blockCount; omega
    rw [if_neg h55, key, hb]
    split
    · rfl
    · split
      · rfl
      · rw [if_pos (by omega)]

/-- The length block is the last block of Pad (R128). -/
theorem lengthBlock_eq_pad (policy : LenPolicy) (msg : List Byte) (h : 56 ≤ msg.length % 64) :
    lengthBlock policy msg.length = wordBlock (padWords policy msg) (msg.length / 64 + 1) := by
  apply block_ext
  intro j
  have hj := j.isLt
  have hb : blockCount msg.length = msg.length / 64 + 2 := by unfold blockCount; omega
  rw [blockByte_wordBlock, streamByte_padWords, laneIndex, lengthBlock, blockByte_setLength, hb,
    if_neg (show ¬ 64 * (msg.length / 64 + 1) + j.val < msg.length by omega),
    if_neg (show ¬ 64 * (msg.length / 64 + 1) + j.val = msg.length by omega)]
  by_cases c1 : 60 ≤ j.val
  · rw [if_pos c1, if_neg (by omega), if_neg (by omega), if_pos (by omega)]
  · rw [if_neg c1]
    by_cases c2 : 56 ≤ j.val
    · rw [if_pos c2, if_neg (by omega), if_pos (by omega)]
    · rw [if_neg c2, if_pos (by omega)]
      exact blockByte_zero j

theorem hashOver_eq_pad (policy : LenPolicy) (msg : List Byte) :
    hashOver msg (msg.length / 64) =
      ((List.range (msg.length / 64)).map (wordBlock (padWords policy msg))).foldl compress initialHash := by
  unfold hashOver
  refine congrArg (List.foldl compress initialHash) (List.map_congr_left ?_)
  intro k hk
  exact dataBlock_eq_pad policy msg k (by simpa using hk)

end Sys2Proof.Machine
end

