-- ==== Sys2Proof/Laws/Message.lean ====
section
/-! SUPPORT. What the state says of the bytes accepted since the last INIT (R31, R129, R180), and that every step keeps
it, whatever the host does. -/

namespace Sys2Proof.Machine

open Sys2Proof Host

/-- How far the engine is in the block: the working registers and the schedule are those of the reference compression
after `rc − 1` rounds (R154 to R157, R160). -/
structure InBlock (s : State) : Prop where
  working : 1 ≤ s.rc.val → s.a = (workingAfter s.H s.M (s.rc.val - 1)).a ∧
    s.b = (workingAfter s.H s.M (s.rc.val - 1)).b ∧ s.c = (workingAfter s.H s.M (s.rc.val - 1)).c ∧
    s.d = (workingAfter s.H s.M (s.rc.val - 1)).d ∧ s.e = (workingAfter s.H s.M (s.rc.val - 1)).e
  schedule : 1 ≤ s.rc.val → ∀ i : Fin 80, i.val < max 16 (s.rc.val - 1) → s.W[i.val] = (expand s.M)[i.val]

theorem InBlock.of_rc_zero {s : State} (h : s.rc.val = 0) : InBlock s := ⟨by omega, by omega⟩

theorem InBlock.load {s : State} : InBlock (engineLoad s) := by
  have e : (engineLoad s).rc.val - 1 = 0 := rfl
  constructor
  · intro _
    rw [e]
    exact ⟨rfl, rfl, rfl, rfl, rfl⟩
  · intro _ i hi
    rw [e] at hi
    have h16 : i.val < 16 := by omega
    have hc := getElem_expand s.M i.val i.isLt
    rw [expandWords_copy s.M 64 h16] at hc
    rw [engineLoad_M, hc, engineLoad_W]
    simp [loadSchedule, h16]

theorem InBlock.round {s : State} (h : InBlock s) {t : Fin 80} (ht : s.rc.val = t.val + 1) : InBlock (engineRound t s) := by
  have htl := t.isLt
  have e1 : s.rc.val - 1 = t.val := by omega
  obtain ⟨ha, hb, hc, hd, he⟩ := h.working (by omega)
  have hw := h.schedule (by omega)
  rw [e1] at ha hb hc hd he hw
  have hwt := roundWord_eq_expand s.M s.W t hw
  have hr := workingAfter_succ s.H s.M t
  refine ⟨fun _ => ?_, fun _ i hi => ?_⟩
  · simp [hr, refRound, hwt, ← ha, ← hb, ← hc, ← hd, ← he]
  · simp at hi
    simp only [engineRound_W, engineRound_M, hwt]
    split
    · simp only [Vector.getElem_set]
      split
      · rename_i e; simp only [e]
      · exact hw i (by omega)
    · exact hw i (by omega)

theorem InBlock.fold {s : State} (h : InBlock s) (h81 : s.rc.val = 81) :
    foldHash s.H s.a s.b s.c s.d s.e = compress s.H s.M := by
  obtain ⟨ha, hb, hc, hd, he⟩ := h.working (by omega)
  rw [h81] at ha hb hc hd he
  rw [compress_eq, ha, hb, hc, hd, he]

/-- The state holds the message `msg`: what has been accepted since the last INIT stands in H and M (R31, R129, R180). -/
structure Holds (msg : List Byte) (s : State) : Prop where
  L : s.phase ≠ .idle → s.L = msg.length
  absorb_p : s.phase = .absorb → s.p.val = msg.length % 64
  absorb_M : s.phase = .absorb → ∀ j : Fin 64, blockByte s.M j = msg.getD (64 * (msg.length / 64) + j.val) 0
  absorb_H : s.phase = .absorb → s.H = hashOver msg (msg.length / 64)
  engine : s.phase = .busy → InBlock s
  full : s.phase = .busy → s.after = .absorb → ∃ k, msg.length = 64 * (k + 1) ∧ s.M = dataBlock msg k ∧
    s.H = hashOver msg k
  lenblk : s.phase = .busy → s.after = .lenblk → 56 ≤ msg.length % 64 ∧
    s.M = wordBlock (padWords s.cfg.lenPolicy msg) (msg.length / 64) ∧ s.H = hashOver msg (msg.length / 64)
  last : s.phase = .busy → s.after = .done → ∃ k, blockCount msg.length = k + 1 ∧
    s.M = wordBlock (padWords s.cfg.lenPolicy msg) k ∧
    s.H = ((List.range k).map (wordBlock (padWords s.cfg.lenPolicy msg))).foldl compress initialHash
  done : s.phase = .done → s.H = sha1Words s.cfg.lenPolicy msg

theorem Holds.of_idle {msg : List Byte} {s : State} (h : s.phase = .idle) : Holds msg s := by
  constructor <;> intro hp <;> simp [h] at hp

/-- Only the fields the message stands in count. -/
theorem Holds.congr {msg : List Byte} {s t : State} (h : Holds msg s) (hphase : t.phase = s.phase) (hL : t.L = s.L)
    (hp : t.p = s.p) (hM : t.M = s.M) (hH : t.H = s.H) (hafter : t.after = s.after) (hcfg : t.cfg = s.cfg)
    (hb : s.phase = .busy → InBlock t) : Holds msg t := by
  obtain ⟨h1, h2, h3, h4, h5, h6, h7, h8, h9⟩ := h
  constructor <;> simp only [hphase, hL, hp, hM, hH, hafter, hcfg] <;> assumption

theorem Holds.engineStep {msg : List Byte} {s : State} (h : Holds msg s) (hp : s.phase = .busy) :
    Holds msg (engineStep s) := by
  have hx := engineStep_effect s
  generalize Sys2Proof.Machine.engineStep s = u at hx
  cases hx with
  | load h0 => exact h.congr rfl rfl rfl rfl rfl rfl rfl (fun _ => InBlock.load)
  | round t ht => exact h.congr rfl rfl rfl rfl rfl rfl rfl (fun hb => (h.engine hb).round ht)
  | fold h81 =>
    have hf := (h.engine hp).fold h81
    have hL := h.L (by simp [hp])
    cases ha : s.after with
    | absorb =>
      obtain ⟨k, hk, hM, hH⟩ := h.full hp ha
      have e : msg.length / 64 = k + 1 := by omega
      refine ⟨?_, ?_, ?_, ?_, ?_, ?_, ?_, ?_, ?_⟩ <;> simp [ha]
      · exact hL
      · omega
      · intro j
        rw [List.getElem?_eq_none (by omega)]; exact blockByte_zero j
      · rw [hf, hM, hH, e, hashOver_succ]
    | lenblk =>
      obtain ⟨h56, hM, hH⟩ := h.lenblk hp ha
      have hb : blockCount msg.length = msg.length / 64 + 1 + 1 := by unfold blockCount; omega
      refine ⟨?_, ?_, ?_, ?_, ?_, ?_, ?_, ?_, ?_⟩ <;> simp [ha, hp]
      · exact hL
      · exact .of_rc_zero (by simp)
      · refine ⟨msg.length / 64 + 1, hb, ?_, ?_⟩
        · rw [hL, lengthBlock_eq_pad _ _ h56]
        · rw [hf, hM, hH, List.range_succ, List.map_append, List.foldl_append, ← hashOver_eq_pad]; rfl
    | done =>
      obtain ⟨k, hk, hM, hH⟩ := h.last hp ha
      refine ⟨?_, ?_, ?_, ?_, ?_, ?_, ?_, ?_, ?_⟩ <;> simp [ha]
      · exact hL
      · rw [hf, hM, hH, sha1Words, padBlocks, hk, List.range_succ, List.map_append, List.foldl_append]; rfl

/-- The message after an accepted command that decoded to `i`. -/
def messageOf (i : Instr) (s : State) (msg : List Byte) : List Byte :=
  match i with
  | .init => []
  | .wrbyte b => if s.phase = .absorb ∧ s.L ≠ s.cfg.maxLen then msg ++ [b] else msg
  | _ => msg

theorem Holds.command {msg : List Byte} {i : Instr} {s t : State} (h : Holds msg s) (hp : s.phase ≠ .busy)
    (hx : CommandEffect i s t) : Holds (messageOf i s msg) t := by
  have raised : ∀ c, Holds msg (s.raise c) := fun c => h.congr rfl rfl rfl rfl rfl rfl rfl (fun hb => absurd hb hp)
  have wrote : ∀ v, Holds msg (s.writeDout v) := fun v => h.congr rfl rfl rfl rfl rfl rfl rfl (fun hb => absurd hb hp)
  cases hx with
  | held _ hb => exact absurd hb hp
  | nop => exact h
  | init =>
    refine ⟨?_, ?_, ?_, ?_, ?_, ?_, ?_, ?_, ?_⟩ <;> simp [messageOf]
    · intro j; exact blockByte_zero j
    · rfl
  | wrbyte b ha hl pos hpos =>
    have hL := h.L (by simp [ha])
    have hm : messageOf (.wrbyte b) s msg = msg ++ [b] := by simp [messageOf, ha, hl]
    have hpp : pos.val = msg.length % 64 := hpos.symm.trans (h.absorb_p ha)
    have hlen : (msg ++ [b]).length = msg.length + 1 := by simp
    have hM : ∀ j : Fin 64, blockByte (setBlockByte s.M pos b) j = (msg ++ [b]).getD (64 * (msg.length / 64) + j.val) 0 := by
      intro j
      rw [blockByte_setBlockByte, h.absorb_M ha]
      by_cases hj : j = pos
      · have : 64 * (msg.length / 64) + j.val = msg.length := by rw [hj, hpp]; omega
        rw [if_pos hj, this]; simp
      · have hjv : j.val ≠ msg.length % 64 := fun e => hj (Fin.ext (e.trans hpp.symm))
        rw [if_neg hj]
        by_cases hl : 64 * (msg.length / 64) + j.val < msg.length
        · rw [List.getD_append _ _ _ _ hl]
        · rw [List.getD_eq_default _ _ (by omega), List.getD_eq_default _ _ (by simp; omega)]
    rw [hm]
    by_cases h63 : pos.val + 1 = 64
    · refine ⟨?_, ?_, ?_, ?_, ?_, ?_, ?_, ?_, ?_⟩ <;> simp [h63]
      · exact hL
      · exact .of_rc_zero (by simp [h63])
      · refine ⟨msg.length / 64, by omega, ?_, ?_⟩
        · apply block_ext
          intro j
          rw [blockByte_dataBlock]
          exact hM j
        · rw [hashOver_append _ _ _ (Nat.le_refl _)]; exact h.absorb_H ha
    · have e1 : (msg.length + 1) / 64 = msg.length / 64 := by omega
      refine ⟨?_, ?_, ?_, ?_, ?_, ?_, ?_, ?_, ?_⟩ <;> simp only [State.appendByte_phase, State.appendByte_L, State.appendByte_p, State.appendByte_M, State.appendByte_H, h63, if_false, ha, hlen, e1] <;> simp
      · exact hL
      · omega
      · simpa using hM
      · rw [hashOver_append _ _ _ (Nat.le_refl _)]; exact h.absorb_H ha
  | final ha pos hpos =>
    have hL := h.L (by simp [ha])
    have hpp : pos.val = msg.length % 64 := hpos.symm.trans (h.absorb_p ha)
    have hM := finalBlock_eq_pad s.cfg.lenPolicy msg s.M pos hpp (h.absorb_M ha)
    by_cases h55 : pos.val ≤ 55
    · rw [if_pos h55] at hM
      refine ⟨?_, ?_, ?_, ?_, ?_, ?_, ?_, ?_, ?_⟩ <;> simp [h55, messageOf]
      · exact hL
      · exact .of_rc_zero (by simp)
      · refine ⟨msg.length / 64, by unfold blockCount; omega, by rw [hL]; exact hM, ?_⟩
        rw [h.absorb_H ha, hashOver_eq_pad s.cfg.lenPolicy]
    · rw [if_neg h55] at hM
      refine ⟨?_, ?_, ?_, ?_, ?_, ?_, ?_, ?_, ?_⟩ <;> simp [h55, messageOf]
      · exact hL
      · exact .of_rc_zero (by simp)
      · exact ⟨by omega, hM, h.absorb_H ha⟩
  | rdword => exact wrote _
  | rdbyte => exact wrote _
  | rdhex => exact wrote _
  | packerSequence _ hi hq =>
    have hna : s.phase ≠ .absorb := by rcases hq with hq | hq <;> simp [hq]
    rcases hi with ⟨b, rfl⟩ | rfl <;> simpa [messageOf, hna] using raised .sequence
  | readSequence _ hi => rcases hi with ⟨n, rfl | rfl | rfl⟩ <;> exact raised _
  | range _ _ hi => rcases hi with ⟨n, rfl, _⟩ | ⟨n, rfl, _⟩ | ⟨n, rfl, _⟩ <;> exact raised _
  | length b ha hl => simpa [messageOf, hl] using raised .length

theorem Holds.withHost {msg : List Byte} {s : State} (h : Holds msg s) (rest : List HostMove) :
    Holds msg { s with host := rest } :=
  h.congr rfl rfl rfl rfl rfl rfl rfl (fun hb => ⟨(h.engine hb).working, (h.engine hb).schedule⟩)

theorem Holds.useDout {msg : List Byte} {s : State} (h : Holds msg s) : Holds msg s.useDout :=
  h.congr rfl rfl rfl rfl rfl rfl rfl (fun hb => ⟨(h.engine hb).working, (h.engine hb).schedule⟩)

theorem Holds.internalStep {msg : List Byte} {s : State} (h : Holds msg s) : Holds msg (internalStep s) := by
  unfold Machine.internalStep
  split
  · exact h.engineStep ‹_›
  · exact h

theorem Holds.step {msg : List Byte} {s t : State} (h : Holds msg s) (hx : step s = .next t) :
    Holds (messageNext s msg) t := by
  rcases hh : s.host with _ | ⟨m, rest⟩
  · rw [step_nothing hh] at hx
    cases hx
    simpa only [messageNext, hh] using h.internalStep
  · cases m with
    | reset =>
      rw [step_reset hh] at hx
      cases hx
      exact .of_idle rfl
    | wait =>
      rw [step_wait hh] at hx
      cases hx
      simpa only [messageNext, hh] using (h.withHost rest).internalStep
    | useDout =>
      rw [step_useDout hh] at hx
      cases hx
      simpa only [messageNext, hh] using (h.withHost rest).useDout.internalStep
    | command w =>
      by_cases hp : s.phase = .busy
      · rw [step_busy hp hh] at hx
        cases hx
        simpa only [messageNext, hh, hp, if_true] using h.engineStep hp
      · rw [step_command hp hh] at hx
        unfold execute at hx
        split at hx
        · cases hx
          rename_i hd
          simp only [messageNext, hh, hp, if_false, hd]
          exact h.congr rfl rfl rfl rfl rfl rfl rfl (fun hb => absurd hb hp)
        · rename_i i hd
          have := (h.withHost rest).command hp (exec_effect hx)
          simp only [messageNext, hh, hp, if_false, hd]
          cases i <;> exact this

end Sys2Proof.Machine
end

