-- ==== Sys2Proof/Laws/PerInstr.lean ====
section
/-! SUPPORT. What is said of every instruction as syntax, one lemma per constructor. -/

namespace Sys2Proof.Laws.RoundTrip

open Sys2Proof

/-- The decoder reads the instruction back from its encoding (R73, R74). -/
def Statement (i : Instr) : Prop := decode (encode i) = .cmd i

theorem nop : Statement .nop := by
  unfold Statement; decide

theorem init : Statement .init := by
  unfold Statement; decide

theorem wrbyte (b : Byte) : Statement (.wrbyte b) := by
  unfold Statement
  rw [decode_eq, opField_encode, rsvField_encode, argField_encode]; rfl

theorem final : Statement .final := by
  unfold Statement; decide

theorem rdword (k : Byte) : Statement (.rdword k) := by
  unfold Statement
  rw [decode_eq, opField_encode, rsvField_encode, argField_encode]; rfl

theorem rdbyte (j : Byte) : Statement (.rdbyte j) := by
  unfold Statement
  rw [decode_eq, opField_encode, rsvField_encode, argField_encode]; rfl

theorem rdhex (i : Byte) : Statement (.rdhex i) := by
  unfold Statement
  rw [decode_eq, opField_encode, rsvField_encode, argField_encode]; rfl

end Sys2Proof.Laws.RoundTrip

namespace Sys2Proof

theorem decode_encode (i : Instr) : decode (encode i) = .cmd i := by
  cases i with
  | nop => exact Laws.RoundTrip.nop
  | init => exact Laws.RoundTrip.init
  | wrbyte b => exact Laws.RoundTrip.wrbyte b
  | final => exact Laws.RoundTrip.final
  | rdword k => exact Laws.RoundTrip.rdword k
  | rdbyte j => exact Laws.RoundTrip.rdbyte j
  | rdhex i => exact Laws.RoundTrip.rdhex i

end Sys2Proof
end

