-- ==== Sys2Proof/Laws/Run.lean ====
section
/-! SUPPORT. Runs: how steps and loaded blocks add up, a BUSY period seen from the step (R101, R160), the state while a
message is absorbed (R31), its end (R127 to R129), and the read-out of the digest (R186). -/

namespace Sys2Proof.Machine

open Sys2Proof Host

theorem steps_add (m n : Nat) (s : State) {t : State} (h : steps m s = .next t) :
    steps (m + n) s = steps n t := by
  induction m generalizing s with
  | zero => cases h; simp
  | succ m ih =>
    rw [Nat.succ_add]
    simp only [steps] at h ⊢
    split at h
    · exact ih _ h
    all_goals cases h

theorem loadedBlocks_add (m n : Nat) (s : State) {t : State} (h : steps m s = .next t) :
    loadedBlocks (m + n) s = loadedBlocks m s ++ loadedBlocks n t := by
  induction m generalizing s with
  | zero => cases h; simp [loadedBlocks]
  | succ m ih =>
    rw [Nat.succ_add]
    unfold steps at h
    split at h
    · rename_i u hu
      simp only [loadedBlocks, hu, ih u h, List.append_assoc]
    all_goals cases h

theorem engineSteps_hostSide (n : Nat) (s : State) (h : List HostMove) (m : Bool) :
    engineSteps n { s with host := h, doutMisused := m } = { engineSteps n s with host := h, doutMisused := m } := by
  induction n generalizing s with
  | zero => rfl
  | succ n ih => simp only [engineSteps, engineStep_hostSide]; exact ih (engineStep s)

/-- The host's side after steps in BUSY with reset low: no reset has come nearer, and a held command stays, the record of U2
with it (R101). -/
structure Undisturbed (s : State) (h : List HostMove) (m : Bool) : Prop where
  noReset : noResetAhead h
  heldHost : ∀ w r, s.host = .command w :: r → h = s.host
  heldMisused : ∀ w r, s.host = .command w :: r → m = s.doutMisused

theorem Undisturbed.trans {s u : State} {h h' : List HostMove} {m m' : Bool} (a : Undisturbed s h m)
    (hh : u.host = h) (hm : u.doutMisused = m) (b : Undisturbed u h' m') : Undisturbed s h' m' := by
  refine ⟨b.noReset, fun w r e => ?_, fun w r e => ?_⟩ <;> have e1 := hh.trans (a.heldHost w r e)
  · exact (b.heldHost w r (e1.trans e)).trans e1
  · exact (b.heldMisused w r (e1.trans e)).trans (hm.trans (a.heldMisused w r e))

theorem HostSide.undisturbed {s : State} {h : List HostMove} {m : Bool} (hs : HostSide s h m)
    (hr : noResetAhead s.host) : Undisturbed s h m := by
  cases hs with
  | held => exact ⟨hr, fun _ _ _ => rfl, fun _ _ _ => rfl⟩
  | wait hh => rw [hh] at hr; exact ⟨hr, by simp [hh], by simp [hh]⟩
  | useDout hh => rw [hh] at hr; exact ⟨hr, by simp [hh], by simp [hh]⟩

theorem step_busy_noReset {s : State} (hp : s.phase = .busy) (hr : noResetAhead s.host) :
    ∃ h m, Undisturbed s h m ∧ step s = .next { engineStep s with host := h, doutMisused := m } := by
  obtain ⟨h, m, hs, he⟩ := step_internal (s := s) (fun r e => by rw [e] at hr; exact hr) (.inl hp)
  rw [show internalStep s = engineStep s from if_pos hp] at he
  exact ⟨h, m, hs.undisturbed hr, he⟩

theorem rstPort_false {s : State} (hr : noResetAhead s.host) : s.rstPort = false := by
  unfold State.rstPort
  rcases hh : s.host with _ | ⟨m, r⟩
  · rfl
  · rw [hh] at hr
    cases m <;> first | rfl | exact hr.elim

/-- A stretch of BUSY with reset low runs the engine (R101, R164); no LOAD, no block. -/
theorem steps_busy_noReset (n : Nat) (s : State) (hr : noResetAhead s.host)
    (hb : ∀ k < n, (engineSteps k s).phase = .busy) :
    ∃ h m, Undisturbed s h m ∧ steps n s = .next { engineSteps n s with host := h, doutMisused := m } ∧
      ((∀ k < n, (engineSteps k s).rc.val ≠ 0) → loadedBlocks n s = []) := by
  induction n generalizing s with
  | zero => exact ⟨s.host, s.doutMisused, ⟨hr, fun _ _ _ => rfl, fun _ _ _ => rfl⟩, rfl, fun _ => rfl⟩
  | succ n ih =>
    have h0 : s.phase = .busy := hb 0 (by omega)
    obtain ⟨h1, m1, u1, hs1⟩ := step_busy_noReset h0 hr
    obtain ⟨h2, m2, u2, hs2, hl2⟩ := ih { engineStep s with host := h1, doutMisused := m1 } u1.noReset
      (by intro k hk; rw [engineSteps_hostSide]; exact hb (k + 1) (by omega))
    refine ⟨h2, m2, u1.trans rfl rfl u2, ?_, ?_⟩
    · simp only [steps, hs1]
      rw [hs2, engineSteps_hostSide]; rfl
    · intro hz
      have hz0 : s.rc ≠ 0 := fun e => hz 0 (by omega) (by rw [show engineSteps 0 s = s from rfl, e]; rfl)
      have := hl2 (by intro k hk; rw [engineSteps_hostSide]; exact hz (k + 1) (by omega))
      simp only [loadedBlocks, hs1, this, hz0, false_and, and_false, if_false, List.append_nil]

/-- What a whole block does, seen from the step (R160, R167). -/
theorem steps_block (s : State) (hp : s.phase = .busy) (hrc : s.rc.val = 0) (hr : noResetAhead s.host) :
    ∃ h m, Undisturbed s h m ∧ steps 82 s = .next { engineSteps 82 s with host := h, doutMisused := m } ∧
      loadedBlocks 82 s = [s.M] := by
  obtain ⟨h1, m1, u1, hs1⟩ := step_busy_noReset hp hr
  let s1 : State := { engineStep s with host := h1, doutMisused := m1 }
  have inside : ∀ k < 81, (engineSteps k s1).phase = .busy ∧ (engineSteps k s1).rc.val ≠ 0 := by
    intro k hk
    rw [engineSteps_hostSide]
    have := engineSteps_inside s hrc (k + 1) (by omega)
    exact ⟨this.1.trans hp, by have e := this.2.1; show (engineSteps (k + 1) s).rc.val ≠ 0; omega⟩
  obtain ⟨h2, m2, u2, hs2, hl2⟩ := steps_busy_noReset 81 s1 u1.noReset (fun k hk => (inside k hk).1)
  have one : steps 1 s = .next s1 := by simp only [steps, hs1, s1]
  have hz0 : s.rc = 0 := Fin.ext hrc
  refine ⟨h2, m2, u1.trans rfl rfl u2, ?_, ?_⟩
  · have e : steps (1 + 81) s = .next { engineSteps (1 + 81) s with host := h2, doutMisused := m2 } := by
      rw [steps_add 1 81 s one, hs2, engineSteps_hostSide, engineSteps_add 1 81 s,
        show engineSteps 1 s = engineStep s from rfl]
    exact e
  · have e : loadedBlocks (1 + 81) s = [s.M] := by
      rw [loadedBlocks_add 1 81 s one, hl2 (fun k hk => (inside k hk).2)]
      simp only [loadedBlocks, hs1, hp, hz0, rstPort_false hr, and_self, if_true, List.append_nil]
    exact e

/-- The state after INIT and the bytes of `msg` (R31). -/
structure Absorbed (cfg : Config) (log : List ErrCode) (misused : Bool) (msg : List Byte) (s : State) : Prop where
  phase : s.phase = .absorb
  cfg : s.cfg = cfg
  log : s.faultLog = log
  misused : s.doutMisused = misused
  err : s.err = false
  ecode : s.ecode = .none
  L : s.L = msg.length
  p : s.p.val = msg.length % 64
  M : ∀ j : Fin 64, blockByte s.M j = msg.getD (64 * (msg.length / 64) + j.val) 0
  H : s.H = hashOver msg (msg.length / 64)

/-- One accepted byte, with the BUSY period the 64th of a block starts (R126, R128). -/
theorem absorb_byte {cfg : Config} {log : List ErrCode} {misused : Bool} {msg : List Byte} {s : State} {b : Byte} {w : CmdWord}
    {rest : List HostMove} (ha : Absorbed cfg log misused msg s) (hmax : msg.length < cfg.maxLen)
    (hh : s.host = .command (encode (.wrbyte b)) :: .command w :: rest) :
    ∃ t : State, Absorbed cfg log misused (msg ++ [b]) t ∧ t.host = .command w :: rest ∧
      steps (1 + 82 * ((msg.length + 1) / 64 - msg.length / 64)) s = .next t ∧
      loadedBlocks (1 + 82 * ((msg.length + 1) / 64 - msg.length / 64)) s =
        (List.range' (msg.length / 64) ((msg.length + 1) / 64 - msg.length / 64)).map (dataBlock (msg ++ [b])) := by
  have hnb : s.phase ≠ .busy := by rw [ha.phase]; simp
  have h64 : s.p.val < 64 := by rw [ha.p]; omega
  have hL : s.L ≠ s.cfg.maxLen := by rw [ha.L, ha.cfg]; omega
  let s0 : State := { s with host := .command w :: rest }
  let pos : Fin 64 := ⟨s.p.val, h64⟩
  have hpos : pos.val = msg.length % 64 := ha.p
  have hstep : step s = .next (s0.appendByte b pos) := by
    rw [step_command hnb hh]
    unfold execute
    rw [decode_encode]
    show execWrbyte b s0 = _
    have : s0.phase = .absorb := ha.phase
    simp only [execWrbyte, whenLegal, this, onlyAbsorb]
    rw [if_neg hL, atPosition_eq (s := s0) pos rfl]
  have hstep1 : steps 1 s = .next (s0.appendByte b pos) := by simp [steps, hstep]
  have hload1 : loadedBlocks 1 s = [] := by simp [loadedBlocks, hstep, hnb]
  have hM : ∀ j : Fin 64, blockByte (setBlockByte s.M pos b) j = (msg ++ [b]).getD (64 * (msg.length / 64) + j.val) 0 := by
    intro j
    rw [blockByte_setBlockByte, ha.M]
    by_cases hj : j = pos
    · have : 64 * (msg.length / 64) + j.val = msg.length := by rw [hj, hpos]; omega
      rw [if_pos hj, this]; simp
    · have hjv : j.val ≠ msg.length % 64 := fun e => hj (Fin.ext (e.trans hpos.symm))
      rw [if_neg hj]
      by_cases hl : 64 * (msg.length / 64) + j.val < msg.length
      · rw [List.getD_append _ _ _ _ hl]
      · rw [List.getD_eq_default _ _ (by omega), List.getD_eq_default _ _ (by simp; omega)]
  by_cases hfull : pos.val + 1 = 64
  · have hd : (msg.length + 1) / 64 - msg.length / 64 = 1 := by omega
    rw [hd]
    let s1 := s0.appendByte b pos
    have hp1 : s1.phase = .busy := by simp [s1, hfull]
    have hrc1 : s1.rc.val = 0 := by simp [s1, hfull]
    have ha1 : s1.after = .absorb := by simp [s1, hfull]
    have hh1 : s1.host = .command w :: rest := by simp [s1, s0]
    obtain ⟨h, m, hu, hs, hl⟩ := steps_block s1 hp1 hrc1 (by rw [hh1]; trivial)
    have hh2 := (hu.heldHost w rest hh1).trans hh1
    have hm2 := hu.heldMisused w rest hh1
    obtain ⟨v, he⟩ := engineSteps_block s1 hrc1
    have hdata : s1.M = dataBlock (msg ++ [b]) (msg.length / 64) := by
      apply block_ext
      intro j
      rw [blockByte_dataBlock]
      simp only [s1, State.appendByte_M]
      exact hM j
    refine ⟨_, ?_, hh2, (steps_add 1 82 s hstep1).trans hs, ?_⟩
    · have hlen : (msg ++ [b]).length = msg.length + 1 := by simp
      have e1 : (msg.length + 1) / 64 = msg.length / 64 + 1 := by omega
      rw [he]
      constructor <;> simp only [completeBlock, ha1, hlen]
      · simp [s1, s0, ha.cfg]
      · simp [s1, s0, ha.log]
      · simp [hm2, s1, s0, ha.misused]
      · simp [s1, s0, ha.err]
      · simp [s1, s0, ha.ecode]
      · simp [s1, s0, ha.L]
      · show (0 : Nat) = _; omega
      · intro j
        rw [List.getD_eq_default _ _ (by rw [hlen]; omega)]
        exact blockByte_zero j
      · rw [e1, hashOver_succ, hashOver_append _ _ _ (Nat.le_refl _), ← hdata, ← ha.H]
        simp [s1, s0]
    · rw [loadedBlocks_add 1 82 s hstep1, hload1, hl, hdata]; simp
  · have hd : (msg.length + 1) / 64 - msg.length / 64 = 0 := by omega
    rw [hd]
    refine ⟨s0.appendByte b pos, ?_, by simp [s0], hstep1, by rw [hload1]; rfl⟩
    have hlen : (msg ++ [b]).length = msg.length + 1 := by simp
    have e1 : (msg.length + 1) / 64 = msg.length / 64 := by omega
    constructor <;> (try simp only [hlen, e1])
    · simp [s0, hfull, ha.phase]
    · simp [s0, ha.cfg]
    · simp [s0, ha.log]
    · simp [s0, ha.misused]
    · simp [s0, ha.err]
    · simp [s0, ha.ecode]
    · simp [s0, ha.L]
    · simp [hpos]; omega
    · intro j; simpa [s0] using hM j
    · rw [hashOver_append _ _ _ (Nat.le_refl _)]; simpa [s0] using ha.H

/-- All the bytes of a message. -/
theorem absorb_bytes {cfg : Config} {log : List ErrCode} {misused : Bool} (bs : List Byte) {msg : List Byte} {s : State} {w : CmdWord}
    {rest : List HostMove} (ha : Absorbed cfg log misused msg s) (hmax : (msg ++ bs).length ≤ cfg.maxLen)
    (hh : s.host = bs.map (fun b => .command (encode (.wrbyte b))) ++ .command w :: rest) :
    ∃ t : State, Absorbed cfg log misused (msg ++ bs) t ∧ t.host = .command w :: rest ∧
      steps (bs.length + 82 * ((msg ++ bs).length / 64 - msg.length / 64)) s = .next t ∧
      loadedBlocks (bs.length + 82 * ((msg ++ bs).length / 64 - msg.length / 64)) s =
        (List.range' (msg.length / 64) ((msg ++ bs).length / 64 - msg.length / 64)).map (dataBlock (msg ++ bs)) := by
  have stable : ∀ (bs msg : List Byte) k, k < msg.length / 64 → dataBlock (msg ++ bs) k = dataBlock msg k := by
    intro bs
    induction bs with
    | nil => simp
    | cons b bs ih =>
      intro msg k hk
      have e : msg ++ b :: bs = (msg ++ [b]) ++ bs := by simp
      rw [e, ih _ _ (by simp; omega), dataBlock_append _ _ _ hk]
  induction bs generalizing msg s with
  | nil => exact ⟨s, by simpa using ha, by simpa using hh, by simp [steps], by simp [loadedBlocks]⟩
  | cons b bs ih =>
    have e : msg ++ b :: bs = (msg ++ [b]) ++ bs := by simp
    have hl : (msg ++ b :: bs).length = msg.length + 1 + bs.length := by simp; omega
    rw [hl] at hmax
    obtain ⟨w', rest', hw⟩ : ∃ w' rest', bs.map (fun b => HostMove.command (encode (.wrbyte b))) ++ .command w :: rest = .command w' :: rest' := by
      cases bs with
      | nil => exact ⟨w, rest, rfl⟩
      | cons c cs => exact ⟨_, _, rfl⟩
    obtain ⟨t, ht, hth, hts, htl⟩ := absorb_byte (b := b) ha (by omega) (by rw [hh, List.map_cons, List.cons_append, hw])
    obtain ⟨u, hu, huh, hus, hul⟩ := ih ht (by rw [← e, hl]; exact hmax) (by rw [hth, hw])
    rw [← e] at hu hus hul
    have hlb : (msg ++ [b]).length = msg.length + 1 := by simp
    have hcount : (b :: bs).length + 82 * ((msg ++ b :: bs).length / 64 - msg.length / 64) =
        (1 + 82 * ((msg.length + 1) / 64 - msg.length / 64)) + (bs.length + 82 * ((msg ++ b :: bs).length / 64 - (msg ++ [b]).length / 64)) := by
      rw [hl, hlb, List.length_cons]; omega
    refine ⟨u, hu, huh, ?_, ?_⟩
    · rw [hcount, steps_add _ _ _ hts, hus]
    · rw [hcount, loadedBlocks_add _ _ _ hts, htl, hul]
      have hsplit : (msg ++ b :: bs).length / 64 - msg.length / 64 = ((msg.length + 1) / 64 - msg.length / 64) + ((msg ++ b :: bs).length / 64 - (msg ++ [b]).length / 64) := by
        rw [hl, hlb]; omega
      rw [hsplit, ← List.range'_append_1, List.map_append]
      have hb : msg.length / 64 + ((msg.length + 1) / 64 - msg.length / 64) = (msg ++ [b]).length / 64 := by
        rw [hlb]; omega
      rw [hb]
      refine congrArg (· ++ _) (List.map_congr_left ?_)
      intro k hk
      rw [e, stable bs (msg ++ [b]) k]
      rw [List.mem_range'_1] at hk
      omega

/-- From the absorbed message, FINAL and its BUSY period (R127 to R129, R161). -/
theorem final_digest {cfg : Config} {log : List ErrCode} {misused : Bool} {msg : List Byte} {s : State} {rest : List HostMove}
    (ha : Absorbed cfg log misused msg s) (hh : s.host = .command (encode .final) :: rest) (hr : noResetAhead rest) :
    ∃ t : State, steps (1 + 82 * (blockCount msg.length - msg.length / 64)) s = .next t ∧
      loadedBlocks (1 + 82 * (blockCount msg.length - msg.length / 64)) s =
        (List.range' (msg.length / 64) (blockCount msg.length - msg.length / 64)).map
          (wordBlock (padWords cfg.lenPolicy msg)) ∧
      t.phase = .done ∧ t.H = sha1Words cfg.lenPolicy msg ∧ t.L = msg.length ∧ t.err = false ∧ t.ecode = .none ∧
      t.faultLog = log ∧ (∀ w r, rest = .command w :: r → t.host = rest ∧ t.doutMisused = misused) := by
  have hnb : s.phase ≠ .busy := by rw [ha.phase]; simp
  have h64 : s.p.val < 64 := by rw [ha.p]; omega
  let s0 : State := { s with host := rest }
  let pos : Fin 64 := ⟨s.p.val, h64⟩
  have hpos : pos.val = msg.length % 64 := ha.p
  have hstep : step s = .next (s0.padMessage pos) := by
    rw [step_command hnb hh]
    unfold execute
    rw [decode_encode]
    show execFinal s0 = _
    have : s0.phase = .absorb := ha.phase
    simp only [execFinal, whenLegal, this, onlyAbsorb]
    rw [atPosition_eq (s := s0) pos rfl]
  have one : steps 1 s = .next (s0.padMessage pos) := by simp only [steps, hstep]
  have hload1 : loadedBlocks 1 s = [] := by simp [loadedBlocks, hstep, hnb]
  let s1 := s0.padMessage pos
  have hM : s1.M = wordBlock (padWords cfg.lenPolicy msg) (msg.length / 64) := by
    rw [← finalBlock_eq_pad cfg.lenPolicy msg s.M pos hpos ha.M]
    simp only [s1, State.padMessage_M]
    simp only [s0, ha.cfg, ha.L]
  have hH : s1.H = hashOver msg (msg.length / 64) := by simp [s1, s0, ha.H]
  obtain ⟨h, m, hu1, hs1, hl1⟩ := steps_block s1 (by simp [s1]) (by simp [s1]) (by simpa [s1, s0] using hr)
  obtain ⟨v, he1⟩ := engineSteps_block s1 (by simp [s1])
  have hash : sha1Words cfg.lenPolicy msg = ((List.range (blockCount msg.length)).map (wordBlock (padWords cfg.lenPolicy msg))).foldl compress initialHash := rfl
  by_cases h55 : pos.val ≤ 55
  · have hb : blockCount msg.length = msg.length / 64 + 1 := by unfold blockCount; omega
    have hd : blockCount msg.length - msg.length / 64 = 1 := by omega
    have haft : s1.after = .done := by simp [s1, h55]
    rw [hd]
    refine ⟨_, (steps_add 1 82 s one).trans hs1, ?_, ?_, ?_, ?_, ?_, ?_, ?_, ?_⟩
    · rw [loadedBlocks_add 1 82 s one, hload1, hl1, hM]; simp
    all_goals (try rw [he1]); simp only [completeBlock, haft]
    · rw [hH, hM, hash, hb, List.range_succ, List.map_append, List.foldl_append, ← hashOver_eq_pad]; rfl
    · simp [s1, s0, ha.L]
    · simp [s1, s0, ha.err]
    · simp [s1, s0, ha.ecode]
    · simp [s1, s0, ha.log]
    · intro w r e
      have e0 : s1.host = .command w :: r := by simpa [s1, s0] using e
      exact ⟨(hu1.heldHost w r e0).trans (by simp [s1, s0]), (hu1.heldMisused w r e0).trans (by simp [s1, s0, ha.misused])⟩
  · have hb : blockCount msg.length = msg.length / 64 + 2 := by unfold blockCount; omega
    have hd : blockCount msg.length - msg.length / 64 = 2 := by omega
    have haft : s1.after = .lenblk := by simp [s1, h55]
    rw [hd]
    let s2 : State := { engineSteps 82 s1 with host := h, doutMisused := m }
    have s2def : s2 = { engineSteps 82 s1 with host := h, doutMisused := m } := rfl
    rw [he1] at s2def
    simp only [completeBlock, haft] at s2def
    have hM2 : s2.M = wordBlock (padWords cfg.lenPolicy msg) (msg.length / 64 + 1) := by
      rw [← lengthBlock_eq_pad cfg.lenPolicy msg (by omega), s2def]
      simp [s1, s0, ha.cfg, ha.L]
    have hrc2 : s2.rc.val = 0 := by rw [s2def]; rfl
    have haft2 : s2.after = .done := by rw [s2def]
    have hH2 : s2.H = compress s1.H s1.M := by rw [s2def]
    obtain ⟨g, k, hu2, hs2, hl2⟩ := steps_block s2 (by rw [s2def]; simp [s1]) hrc2 hu1.noReset
    obtain ⟨v2, he2⟩ := engineSteps_block s2 hrc2
    have two : steps (1 + 82) s = .next s2 := (steps_add 1 82 s one).trans hs1
    refine ⟨_, (steps_add (1 + 82) 82 s two).trans hs2, ?_, ?_, ?_, ?_, ?_, ?_, ?_, ?_⟩
    · rw [show 1 + 82 * 2 = (1 + 82) + 82 from rfl, loadedBlocks_add (1 + 82) 82 s two, loadedBlocks_add 1 82 s one, hload1, hl1, hl2, hM, hM2]
      simp [List.range'_succ]
    all_goals (try rw [he2]); simp only [completeBlock, haft2]
    · rw [hH2, hM2, hH, hM, hash, hb, List.range_succ, List.map_append, List.foldl_append, List.range_succ, List.map_append, List.foldl_append, ← hashOver_eq_pad]; rfl
    · rw [s2def]; simp [s1, s0, ha.L]
    · rw [s2def]; simp [s1, s0, ha.err]
    · rw [s2def]; simp [s1, s0, ha.ecode]
    · rw [s2def]; simp [s1, s0, ha.log]
    · intro w r e
      have e0 : s1.host = .command w :: r := by simpa [s1, s0] using e
      have hu := hu1.trans (u := s2) rfl rfl hu2
      exact ⟨(hu.heldHost w r e0).trans (by simp [s1, s0]), (hu.heldMisused w r e0).trans (by simp [s1, s0, ha.misused])⟩

/-- INIT (R105). -/
theorem init_absorbed {s : State} {rest : List HostMove} (hp : s.phase ≠ .busy)
    (hh : s.host = .command (encode .init) :: rest) :
    ∃ t : State, Absorbed s.cfg s.faultLog s.doutMisused [] t ∧ t.host = rest ∧ steps 1 s = .next t ∧ loadedBlocks 1 s = [] := by
  let s0 : State := { s with host := rest }
  have hstep : step s = .next s0.startMessage := by
    rw [step_command hp hh]
    unfold execute
    rw [decode_encode]
    show execInit s0 = _
    have h0 : s0.phase ≠ .busy := hp
    unfold execInit whenLegal
    cases h : s0.phase <;> simp_all [anyReadyPhase]
  refine ⟨s0.startMessage, ?_, rfl, by simp only [steps, hstep], by simp [loadedBlocks, hstep, hp]⟩
  constructor <;> simp [s0]
  · intro j; exact blockByte_zero j
  · rfl

/-- One RDHEX of the read-out (R186). -/
theorem read_hex_step {s : State} {i : Nat} {rest : List HostMove} (hp : s.phase = .done) (hi : i < 40)
    (hh : s.host = .command (encode (.rdhex (BitVec.ofNat 8 i))) :: rest) :
    step s = .next (({ s with host := rest } : State).writeDout (zext32 (hexCode (hexNibble s.H ⟨i, hi⟩)))) := by
  have e : (BitVec.ofNat 8 i).toNat = i := by simp; omega
  rw [step_command (by rw [hp]; simp) hh]
  unfold execute
  rw [decode_encode]
  simp only [exec, execRdhex, whenLegal, hp, onlyDone, readInto, charIndex, e, hi, dite_true]

/-- RDHEX over a list of indexes and one more: what the last of them leaves. -/
theorem read_hex_steps (l : List Nat) {s : State} {i : Nat} {rest : List HostMove} (hp : s.phase = .done)
    (hl : ∀ x ∈ l, x < 40) (hi : i < 40)
    (hh : s.host = (l ++ [i]).map (fun x => .command (encode (.rdhex (BitVec.ofNat 8 x)))) ++ rest) :
    ∃ t : State, steps (l.length + 1) s = .next t ∧ t.phase = .done ∧ t.H = s.H ∧ t.err = s.err ∧
      t.faultLog = s.faultLog ∧ t.doutMisused = s.doutMisused ∧ t.doutWritten = true ∧
      t.doutPort = zext32 (hexCode (hexNibble s.H ⟨i, hi⟩)) := by
  induction l generalizing s with
  | nil =>
    refine ⟨_, by simp only [List.length_nil, steps, read_hex_step hp hi hh]; rfl, ?_⟩
    simp [hp, State.doutPort]
  | cons x l ih =>
    rw [List.cons_append, List.map_cons, List.cons_append] at hh
    obtain ⟨u, hu, hup, huH, hue, hul, hum, huh⟩ : ∃ u : State, step s = .next u ∧ u.phase = .done ∧ u.H = s.H ∧
        u.err = s.err ∧ u.faultLog = s.faultLog ∧ u.doutMisused = s.doutMisused ∧
        u.host = (l ++ [i]).map (fun x => .command (encode (.rdhex (BitVec.ofNat 8 x)))) ++ rest :=
      ⟨_, read_hex_step hp (hl x (by simp)) hh, hp, rfl, rfl, rfl, rfl, rfl⟩
    obtain ⟨t, h1, h2, h3, h4, h5, h6, h7, h8⟩ := ih hup (fun y hy => hl y (by simp [hy])) huh
    refine ⟨t, ?_, h2, h3.trans huH, h4.trans hue, h5.trans hul, h6.trans hum, h7, ?_⟩
    · rw [List.length_cons]
      simp only [steps, hu] at h1 ⊢
      exact h1
    · simpa only [huH] using h8

end Sys2Proof.Machine
end

