-- ==== Sys2Proof/Tests/Slice0.lean ====
section
/-! SUPPORT. Small tests of one step each, with expected values from 95_test_vectors.md and the rules' own examples, and
for every statement with hypotheses a concrete state and operands that meet them together (`witness_<statement>`). -/

namespace Sys2Proof.Tests

open Sys2Proof Sys2Proof.Machine Host

/-! ## Helpers -/

/-- One field of the next state, none at a stop. -/
def field {α : Type} (f : State → α) : Result → Option α
  | .next t => some (f t)
  | .fault _ => none
  | .refused _ => none

/-- A state in a given phase, all else as after reset. -/
def inPhase (ph : Phase) (moves : List HostMove := []) : State := { State.reset with phase := ph, host := moves }

/-- ABSORB after `n ≤ 64` zero bytes. -/
def absorbing (n : Nat) (moves : List HostMove := []) : State :=
  { inPhase .absorb moves with p := Fin.ofNat 65 n, L := n }

/-- ABSORB with a 3-bit length counter at its maximum (95_test_vectors.md section 2.8). -/
def full3 (moves : List HostMove := []) : State :=
  { absorbing 7 moves with cfg := { lenCtrBits := 3 } }

/-- BUSY at an engine step. -/
def busyAt (rc : Nat) (after : After) (moves : List HostMove := []) : State :=
  { inPhase .busy moves with rc := Fin.ofNat 82 rc, after := after }

/-- The digest of `abc` (95_test_vectors.md, S2). -/
def abcDigest : Vector Word 5 := #v[0xA9993E36, 0x4706816A, 0xBA3E2571, 0x7850C26C, 0x9CD0D89D]

/-- DONE with the digest of `abc`. -/
def abcDone (moves : List HostMove := []) : State :=
  { inPhase .done moves with H := abcDigest, p := 3, L := 3 }

/-! ## Well-formedness: each check with a term it refuses (R79) -/

theorem test_wellFormed_refuses_rdword_5 : (Instr.rdword 5).wellFormed = false := by decide
theorem test_wellFormed_refuses_rdbyte_20 : (Instr.rdbyte 20).wellFormed = false := by decide
theorem test_wellFormed_refuses_rdhex_40 : (Instr.rdhex 40).wellFormed = false := by decide
theorem test_wellFormed_accepts_last_indexes :
    (Instr.rdword 4).wellFormed ∧ (Instr.rdbyte 19).wellFormed ∧ (Instr.rdhex 39).wellFormed ∧
      (Instr.wrbyte 255).wellFormed := by decide

/-! ## Decoding, words written out bit by bit from R70 and R73: op, rsv, arg -/

theorem test_decode_nop : decode 0b0000_0000_00000000 = .cmd .nop := by decide
theorem test_decode_init : decode 0b0001_0000_00000000 = .cmd .init := by decide
theorem test_decode_wrbyte : decode 0b0010_0000_10100101 = .cmd (.wrbyte 0xA5) := by decide
theorem test_decode_final : decode 0b0011_0000_00000000 = .cmd .final := by decide
theorem test_decode_rdword : decode 0b0100_0000_00000011 = .cmd (.rdword 3) := by decide
theorem test_decode_rdbyte : decode 0b0101_0000_00010011 = .cmd (.rdbyte 19) := by decide
theorem test_decode_rdhex : decode 0b0110_0000_11001000 = .cmd (.rdhex 200) := by decide
theorem test_decode_reserved : decode 0b0111_0000_00000000 = .illegal .reservedOpcode ∧
    decode 0b1111_1111_11111111 = .illegal .reservedOpcode := by decide
theorem test_decode_rsv : decode 0b0010_0001_01000001 = .illegal .reservedFieldNotZero := by decide
theorem test_decode_arg : decode 0b0001_0000_00000001 = .illegal .operandNotZero := by decide

theorem test_table_words :
    decodeTableWord 16 0x0000 = some .nop ∧ decodeTableWord 16 0x1000 = some .init ∧
    decodeTableWord 16 0x2000 = some (.wrbyte 0) ∧ decodeTableWord 16 0x3000 = some .final ∧
    decodeTableWord 16 0x4000 = some (.rdword 0) ∧ decodeTableWord 16 0x5000 = some (.rdbyte 0) ∧
    decodeTableWord 16 0x6000 = some (.rdhex 0) ∧ decodeTableWord 16 0x7000 = none := by decide

/-- A word placed after reset runs as the first instruction (R231). -/
theorem test_placed_word_runs :
    field State.statusPort (step (State.reset.withFetchWord 16 0x1000)) = some 0x05 ∧
    field State.statusPort (step (State.reset.withFetchWord 16 0x2041)) = some 0x2C := by decide

/-! ## Commands -/

/-- R104's example. -/
theorem test_nop_leaves_status : field State.statusPort (exec .nop (absorbing 3)) = some 0x05 := by decide

/-- 95_test_vectors.md section 2.8: an INIT clears a recorded error. -/
theorem test_init_clears_error :
    field State.statusPort (exec .init ((absorbing 3).raise .illegal)) = some 0x05 := by decide
/-- R150. -/
theorem test_init_loads_iv : field (fun t => (t.H[0], t.H[4])) (exec .init abcDone) =
    some (0x67452301, 0xC3D2E1F0) := by decide

/-- 95_test_vectors.md section 2.6, the third byte. -/
theorem test_wrbyte_third_lane :
    field (fun t => (t.M[0], t.p, t.L))
      (exec (.wrbyte 0x03) { absorbing 2 with M := (Vector.replicate 16 0).set 0 0x01020000 }) =
      some (0x01020300, 3, 3) := by decide
/-- 95_test_vectors.md section 2.8, the LENGTH row. -/
theorem test_wrbyte_length : field (fun t => (t.statusPort, t.L)) (exec (.wrbyte 0) full3) = some (0x4D, 7) := by decide

/-- 95_test_vectors.md section 2.6, FINAL. -/
theorem test_final_pads :
    field (fun t => (t.M[0], t.M[14], t.M[15], t.after, t.statusPort))
      (exec .final { absorbing 3 with M := (Vector.replicate 16 0).set 0 0x01020300 }) =
      some (0x01020380, 0, 0x18, .done, 0x02) := by decide
/-- 95_test_vectors.md program P2, step 58. -/
theorem test_final_length_does_not_fit :
    field (fun t => (t.M[14], t.M[15], t.after, t.p)) (exec .final (absorbing 56)) =
      some (0x80000000, 0, .lenblk, 56) := by decide

/-- R44, U2: a use of the port right after reset is recorded as a fault and the machine goes on; after a read it is not. -/
theorem test_use_of_dout :
    field (fun t => (t.doutMisused, t.statusPort)) (step { State.reset with host := [.useDout] }) = some (true, 0x04) ∧
    field State.doutMisused (steps 2 (abcDone [.command 0x4000, .useDout])) = some false ∧
    field State.doutPort (steps 2 (abcDone [.command 0x4000, .useDout])) = some 0xA9993E36 := by decide

/-- R184's example. -/
theorem test_rdword_last : field State.dout (exec (.rdword 4) abcDone) = some 0x9CD0D89D := by decide
/-- 95_test_vectors.md program P3, step 9. -/
theorem test_rdword_range : field (fun t => (t.statusPort, t.doutWritten)) (exec (.rdword 5) abcDone) =
    some (0x3F, false) := by decide

/-- 95_test_vectors.md section 2.7. -/
theorem test_rdbyte : field State.dout (exec (.rdbyte 3) abcDone) = some 0x36 ∧
    field State.dout (exec (.rdbyte 4) abcDone) = some 0x47 := by decide
theorem test_rdbyte_range : field State.statusPort (exec (.rdbyte 20) abcDone) = some 0x3F := by decide

/-- 95_test_vectors.md section 2.7. -/
theorem test_rdhex : field State.dout (exec (.rdhex 38) abcDone) = some 0x39 ∧
    field State.dout (exec (.rdhex 39) abcDone) = some 0x64 := by decide
/-- R103's example. -/
theorem test_rdhex_range : field State.statusPort (exec (.rdhex 200) abcDone) = some 0x3F := by decide

/-- 95_test_vectors.md section 2.8: ILLEGAL beats SEQUENCE, SEQUENCE beats RANGE, a held word has no effect. -/
theorem test_order_of_checks :
    field State.statusPort (step (inPhase .idle [.command 0x2141])) = some 0x1C ∧
    field State.statusPort (step (inPhase .idle [.command 0x60C8])) = some 0x2C ∧
    field State.statusPort (step (inPhase .absorb [.command 0x1001])) = some 0x1D ∧
    field State.statusPort (step (busyAt 0 .done [.command 0x7000])) = some 0x02 := by decide

/-! ## Words and the engine -/

/-- 95_test_vectors.md section 2.1. -/
theorem test_rotl : rotl 0x80000001 1 = 0x00000003 ∧ rotl 0x12345678 5 = 0x468ACF02 ∧
    rotl 0x12345678 30 = 0x048D159E := by decide
/-- 95_test_vectors.md section 2.2. -/
theorem test_round_functions :
    roundFunction 0 0xFFFF0000 0xFF00FF00 0xF0F0F0F0 = 0xFF00F0F0 ∧
    roundFunction 1 0xFFFF0000 0xFF00FF00 0xF0F0F0F0 = 0xF00F0FF0 ∧
    roundFunction 2 0xFFFF0000 0xFF00FF00 0xF0F0F0F0 = 0xFFF0F000 := by decide
/-- 95_test_vectors.md section 2.3: round 0 of `abc`. -/
theorem test_round_0 :
    roundValue 0 0x67452301 0xEFCDAB89 0x98BADCFE 0x10325476 0xC3D2E1F0 0x61626380 = 0x0116FC33 := by decide
/-- 95_test_vectors.md section 2.3: all ones at round 79. -/
theorem test_round_79 :
    roundValue 79 0xFFFFFFFF 0xFFFFFFFF 0xFFFFFFFF 0xFFFFFFFF 0xFFFFFFFF 0xFFFFFFFF = 0xCA62C1D2 := by decide
/-- R142's example. -/
theorem test_schedule_word_16 : scheduleWord 0 0 0 0x61626380 = 0xC2C4C700 := by decide
/-- R158's corner case. -/
theorem test_fold_wraps :
    (engineStep { busyAt 81 .done with H := #v[0xFFFFFFFF, 0, 0, 0, 0], a := 2 }).H[0] = 1 := by decide
/-- R128's example. -/
theorem test_length_block :
    (engineStep { busyAt 81 .lenblk with p := 56, L := 56 }).M[15] = 0x000001C0 ∧
    (engineStep { busyAt 81 .lenblk with p := 56, L := 56 }).phase = .busy := by decide
/-- R121's values. -/
theorem test_block_count : [0, 55, 56, 63, 64, 119, 120].map blockCount = [1, 1, 2, 2, 2, 2, 3] := by decide
/-- 95_test_vectors.md section 2.6, the length words. -/
theorem test_length_words : lenLo 56 = 0x1C0 ∧ lenLo (2 ^ 29 - 1) = 0xFFFFFFF8 ∧ lenLo (2 ^ 29) = 0 ∧
    lenHi .full64 (2 ^ 29) = 1 ∧ lenHi .full64 (2 ^ 61 - 1) = 0xFFFFFFFF ∧ lenHi .trunc32 (2 ^ 29) = 0 := by decide

/-! ## Hypotheses that are met -/

theorem witness_StepRunsDecodedCommand :
    (inPhase .idle [.command 0x1000]).phase ≠ .busy ∧
    (inPhase .idle [.command 0x1000]).host = .command 0x1000 :: [] ∧ decode 0x1000 = .cmd .init := by decide

theorem witness_PlacedWordRunsNext :
    State.reset.phase ≠ .busy ∧ decodeTableWord 16 0x2061 = some (.wrbyte 0x61) := by decide

/-- One word for each disjunct and each ready phase, at the ends of the ranges. -/
theorem witness_IllegalWordRaisesIllegal :
    ((inPhase .idle [.command 0x7000]).phase ≠ .busy ∧ (inPhase .idle [.command 0x7000]).host = .command 0x7000 :: [] ∧
      7 ≤ (0x7000 : CmdWord).toNat / 0x1000) ∧
    ((inPhase .absorb [.command 0x2141]).phase ≠ .busy ∧
      (inPhase .absorb [.command 0x2141]).host = .command 0x2141 :: [] ∧
      (0x2141 : CmdWord).toNat / 0x100 % 0x10 ≠ 0) ∧
    ((abcDone [.command 0x3001]).phase ≠ .busy ∧ (abcDone [.command 0x3001]).host = .command 0x3001 :: [] ∧
      (0x3001 : CmdWord).toNat / 0x1000 = 3 ∧ (0x3001 : CmdWord).toNat % 0x100 ≠ 0) := by decide

theorem witness_RaiseKeepsFirstCode :
    State.reset.err = false ∧ (State.reset.raise .sequence).err = true := by decide

/-- One accepted word for each code and for none, at the ends of the ranges. -/
theorem witness_ExecuteChecksInOrder :
    (∃ t, step (inPhase .idle [.command 0x6F00]) = .next t ∧ t.faultLog = [.illegal]) ∧
    (∃ t, step (inPhase .idle [.command 0x60C8]) = .next t ∧ t.faultLog = [.sequence]) ∧
    (∃ t, step (abcDone [.command 0x20FF]) = .next t ∧ t.faultLog = [.sequence]) ∧
    (∃ t, step (abcDone [.command 0x4005]) = .next t ∧ t.faultLog = [.range]) ∧
    (∃ t, step (abcDone [.command 0x5014]) = .next t ∧ t.faultLog = [.range]) ∧
    (∃ t, step (abcDone [.command 0x6028]) = .next t ∧ t.faultLog = [.range]) ∧
    (∃ t, step (full3 [.command 0x2000]) = .next t ∧ t.faultLog = [.length]) ∧
    (∃ t, step (abcDone [.command 0x4004]) = .next t ∧ t.faultLog = []) ∧
    (∃ t, step (abcDone [.command 0x5013]) = .next t ∧ t.faultLog = []) ∧
    (∃ t, step (abcDone [.command 0x6027]) = .next t ∧ t.faultLog = []) := by
  refine ⟨⟨_, rfl, ?_⟩, ⟨_, rfl, ?_⟩, ⟨_, rfl, ?_⟩, ⟨_, rfl, ?_⟩, ⟨_, rfl, ?_⟩, ⟨_, rfl, ?_⟩, ⟨_, rfl, ?_⟩,
    ⟨_, rfl, ?_⟩, ⟨_, rfl, ?_⟩, ⟨_, rfl, ?_⟩⟩ <;> decide

theorem witness_RefusedCommandHasNoOtherEffect :
    (abcDone [.command 0x2001]).phase ≠ .busy ∧ (abcDone [.command 0x2001]).host = .command 0x2001 :: [] ∧
    ∃ t, step (abcDone [.command 0x2001]) = .next t ∧ t.faultLog ≠ (abcDone [.command 0x2001]).faultLog :=
  ⟨by decide, by decide, _, rfl, by decide⟩

theorem witness_IllegalPhaseRaisesSequence :
    (busyAt 0 .done).phase = .busy ∧ (inPhase .idle).phase = .idle ∧ abcDone.phase = .done ∧
    (absorbing 0).phase = .absorb ∧ (∃ b, Instr.wrbyte 0x41 = .wrbyte b) ∧
    (∃ n, Instr.rdword 0 = .rdword n ∨ Instr.rdword 0 = .rdbyte n ∨ Instr.rdword 0 = .rdhex n) :=
  ⟨by decide, by decide, by decide, by decide, ⟨0x41, rfl⟩, ⟨0, .inl rfl⟩⟩

/-- By reset, and by INIT. -/
theorem witness_ErrorRecordClearedOnlyByResetOrInit :
    (∃ t, step ((inPhase .done [.reset]).raise .range) = .next t ∧
      ((inPhase .done [.reset]).raise .range).err = true ∧ t.err = false) ∧
    (∃ t, step ((absorbing 3 [.command 0x1000]).raise .illegal) = .next t ∧
      ((absorbing 3 [.command 0x1000]).raise .illegal).err = true ∧ t.err = false) :=
  ⟨⟨_, rfl, by decide, by decide⟩, ⟨_, rfl, by decide, by decide⟩⟩

theorem witness_FaultRecordAndConfigurationKept :
    (∃ t, steps 2 (inPhase .idle [.command 0x2041, .command 0x1000]) = .next t ∧ t.faultLog = [.sequence]) ∧
    (∃ t, steps 1 (inPhase .idle [.command 0x1000]) = .next t ∧ t.noErrorRecorded) ∧
    (∃ t, steps 2 ({ inPhase .done [.reset, .command 0x1000] with doutMisused := true }) = .next t ∧
      t.doutMisused = true) :=
  ⟨⟨_, rfl, by decide⟩, ⟨_, rfl, rfl, rfl⟩, ⟨_, rfl, by decide⟩⟩

theorem witness_NopHasNoEffect :
    (0x0001 : CmdWord).toNat / 0x1000 = 0 ∧ (0x0001 : CmdWord).toNat ≠ 0 ∧
    (0x0FFF : CmdWord).toNat / 0x1000 = 0 ∧ (0x0FFF : CmdWord).toNat ≠ 0 := by decide

theorem witness_InitStartsNewDigest :
    (inPhase .idle).phase ≠ .busy ∧ (absorbing 5).phase ≠ .busy ∧ abcDone.phase ≠ .busy ∧
    (busyAt 81 .done).phase = .busy ∧
    (0x1001 : CmdWord).toNat / 0x1000 = 1 ∧ (0x1001 : CmdWord).toNat ≠ 0x1000 := by decide

/-- Positions 0 and 63, the last length below the maximum, the maximum, the other phases, a reserved field. -/
theorem witness_WrbyteAppendsByte :
    ((absorbing 0).phase = .absorb ∧ (absorbing 0).p.val = (0 : Fin 64).val ∧
      (absorbing 0).L ≠ 2 ^ (absorbing 0).cfg.lenCtrBits - 1) ∧
    ((absorbing 63).phase = .absorb ∧ (absorbing 63).p.val = (63 : Fin 64).val ∧
      (absorbing 63).L ≠ 2 ^ (absorbing 63).cfg.lenCtrBits - 1) ∧
    ({ absorbing 62 with L := 2 ^ 61 - 2 } : State).L ≠ 2 ^ (absorbing 62).cfg.lenCtrBits - 1 ∧
    ((full3).phase = .absorb ∧ full3.L = 2 ^ full3.cfg.lenCtrBits - 1) ∧
    (inPhase .idle).phase = .idle ∧ abcDone.phase = .done ∧ (busyAt 1 .absorb).phase = .busy ∧
    (0x2100 : CmdWord).toNat / 0x1000 = 2 ∧ (0x2100 : CmdWord).toNat / 0x100 % 0x10 ≠ 0 := by decide

theorem witness_WrbyteStoresOneByte :
    (absorbing 63).phase = .absorb ∧ (absorbing 63).p.val < 64 ∧
    (absorbing 63).L ≠ 2 ^ (absorbing 63).cfg.lenCtrBits - 1 := by decide

/-- Positions 0, 55, 56 and 63, the other phases, an operand. -/
theorem witness_FinalPadsBlock :
    ((absorbing 0).phase = .absorb ∧ (absorbing 0).p.val = (0 : Fin 64).val) ∧
    ((absorbing 55).phase = .absorb ∧ (absorbing 55).p.val = (55 : Fin 64).val) ∧
    ((absorbing 56).phase = .absorb ∧ (absorbing 56).p.val = (56 : Fin 64).val) ∧
    ((absorbing 63).phase = .absorb ∧ (absorbing 63).p.val = (63 : Fin 64).val) ∧
    (absorbing 55).err = false ∧ (absorbing 55).ecode = .none ∧
    (inPhase .idle).phase = .idle ∧ abcDone.phase = .done ∧ (busyAt 1 .absorb).phase = .busy ∧
    (0x3001 : CmdWord).toNat / 0x1000 = 3 ∧ (0x3001 : CmdWord).toNat ≠ 0x3000 := by decide

/-- Both sides of the boundary 55. -/
theorem witness_FinalBlockBytes :
    ((absorbing 55).phase = .absorb ∧ (absorbing 55).p.val < 64 ∧ (absorbing 55).p.val ≤ 55) ∧
    ((absorbing 56).phase = .absorb ∧ (absorbing 56).p.val < 64 ∧ 55 < (absorbing 56).p.val) := by decide

theorem witness_PackerStopsPastBlock :
    (absorbing 64).phase = .absorb ∧ (absorbing 64).p.val = 64 ∧ (absorbing 64).L ≠ (absorbing 64).cfg.maxLen := by
  decide

/-- Lengths on both sides of 2^29, and below 2^61. -/
theorem witness_LengthFieldWords :
    2 ^ 29 - 1 < 2 ^ 61 ∧ 2 ^ 29 < 2 ^ 61 ∧ 2 ^ 61 - 1 < 2 ^ 61 ∧ ([0x61] : List Byte).length < 2 ^ 29 := by decide

/-- The last index in range, the first beyond, the other phases, a reserved field. -/
theorem witness_RdwordReturnsHashWord :
    abcDone.phase = .done ∧ (4 : Byte).toNat < 5 ∧ 4 < (5 : Byte).toNat ∧ (inPhase .idle).phase = .idle ∧
    (absorbing 0).phase = .absorb ∧ (busyAt 0 .done).phase = .busy ∧
    (0x4100 : CmdWord).toNat / 0x1000 = 4 ∧ (0x4100 : CmdWord).toNat / 0x100 % 0x10 ≠ 0 := by decide

theorem witness_RdbyteReturnsDigestByte :
    abcDone.phase = .done ∧ (19 : Byte).toNat < 20 ∧ 19 < (20 : Byte).toNat ∧ (inPhase .idle).phase = .idle ∧
    (absorbing 0).phase = .absorb ∧ (busyAt 0 .done).phase = .busy ∧
    (0x5F00 : CmdWord).toNat / 0x1000 = 5 ∧ (0x5F00 : CmdWord).toNat / 0x100 % 0x10 ≠ 0 := by decide

theorem witness_RdhexReturnsHexDigit :
    abcDone.phase = .done ∧ (39 : Byte).toNat < 40 ∧ 39 < (40 : Byte).toNat ∧ (inPhase .idle).phase = .idle ∧
    (absorbing 0).phase = .absorb ∧ (busyAt 0 .done).phase = .busy ∧
    (0x6100 : CmdWord).toNat / 0x1000 = 6 ∧ (0x6100 : CmdWord).toNat / 0x100 % 0x10 ≠ 0 := by decide

theorem witness_DigestStringIsLowercaseHex : (0x61 : Byte) ∈ hexString abcDigest := by decide

/-- A run of one step in DONE, and a read on both sides of it. -/
theorem witness_DigestStableInDone :
    (abcDone [.command 0x4000]).phase = .done ∧ HostMove.reset ∉ (abcDone [.command 0x4000]).host ∧
    HostMove.command 0x1000 ∉ (abcDone [.command 0x4000]).host ∧
    ∃ t, steps 1 (abcDone [.command 0x4000]) = .next t ∧
      (∃ u, exec (.rdhex (BitVec.ofNat 8 (39 : Fin 40).val)) (abcDone [.command 0x4000]) = .next u) ∧
      ∃ v, exec (.rdhex (BitVec.ofNat 8 (39 : Fin 40).val)) t = .next v :=
  ⟨by decide, by decide, by decide, _, rfl, ⟨_, rfl⟩, ⟨_, rfl⟩⟩

/-- By INIT, and by FOLD. -/
theorem witness_HashStateWriters :
    (∃ t, step (abcDone [.command 0x1000]) = .next t ∧ t.H ≠ (abcDone [.command 0x1000]).H) ∧
    (∃ t, step { busyAt 81 .done with a := 1 } = .next t ∧ t.H ≠ (busyAt 81 .done).H) :=
  ⟨⟨_, rfl, by decide⟩, ⟨_, rfl, by decide⟩⟩

theorem witness_DoutWriters :
    ∃ t, step (abcDone [.command 0x6027]) = .next t ∧ t.dout ≠ (abcDone [.command 0x6027]).dout :=
  ⟨_, rfl, by decide⟩

/-- Used in BUSY, in a ready phase before a read, and after one. -/
theorem witness_DoutPortShowsRegister :
    ((busyAt 0 .done [.useDout]).host = .useDout :: [] ∧ (busyAt 0 .done [.useDout]).phase = .busy) ∧
    ((abcDone [.useDout]).host = .useDout :: [] ∧ (abcDone [.useDout]).phase ≠ .busy) ∧
    ∃ t, step (abcDone [.useDout]) = .next t ∧ t.doutMisused ≠ (abcDone [.useDout]).doutMisused :=
  ⟨by decide, by decide, _, rfl, by decide⟩

/-- By INIT, and by WRBYTE. -/
theorem witness_LengthCounterWriters :
    (∃ t, step (absorbing 3 [.command 0x1000]) = .next t ∧ t.L ≠ (absorbing 3 [.command 0x1000]).L) ∧
    (∃ t, step (absorbing 3 [.command 0x2000]) = .next t ∧ t.L ≠ (absorbing 3 [.command 0x2000]).L) :=
  ⟨⟨_, rfl, by decide⟩, ⟨_, rfl, by decide⟩⟩

/-- Each of the five ways. -/
theorem witness_PhaseTransitions :
    (∃ t, step (busyAt 40 .done [.reset]) = .next t ∧ t.phase ≠ (busyAt 40 .done [.reset]).phase) ∧
    (∃ t, step (inPhase .idle [.command 0x1000]) = .next t ∧ t.phase ≠ (inPhase .idle [.command 0x1000]).phase) ∧
    (∃ t, step (absorbing 63 [.command 0x2000]) = .next t ∧ t.phase ≠ (absorbing 63 [.command 0x2000]).phase) ∧
    (∃ t, step (absorbing 0 [.command 0x3000]) = .next t ∧ t.phase ≠ (absorbing 0 [.command 0x3000]).phase) ∧
    (∃ t, step (busyAt 81 .absorb) = .next t ∧ t.phase ≠ (busyAt 81 .absorb).phase) ∧
    (∃ t, step (busyAt 81 .done) = .next t ∧ t.phase ≠ (busyAt 81 .done).phase) :=
  ⟨⟨_, rfl, by decide⟩, ⟨_, rfl, by decide⟩, ⟨_, rfl, by decide⟩, ⟨_, rfl, by decide⟩, ⟨_, rfl, by decide⟩,
    ⟨_, rfl, by decide⟩⟩

/-- Each command where it runs. -/
theorem witness_CommandFrames :
    (∃ t, exec .nop State.reset = .next t ∧ t.faultLog = State.reset.faultLog) ∧ (∃ t, exec .init abcDone = .next t) ∧
    (∃ t, exec (.wrbyte 0x61) (absorbing 3) = .next t) ∧ (∃ t, exec .final (absorbing 3) = .next t) ∧
    (∃ t, exec (.rdword 4) abcDone = .next t) ∧ (∃ t, exec (.rdbyte 19) abcDone = .next t) ∧
    (∃ t, exec (.rdhex 39) abcDone = .next t) :=
  ⟨⟨_, rfl, rfl⟩, ⟨_, rfl⟩, ⟨_, rfl⟩, ⟨_, rfl⟩, ⟨_, rfl⟩, ⟨_, rfl⟩, ⟨_, rfl⟩⟩

theorem witness_ResetTakesAnyPhaseToIdle :
    (abcDone [.reset]).host = .reset :: [] ∧
    (∃ t, (busyAt 40 .done [.reset]).phase = .busy ∧ step (busyAt 40 .done [.reset]) = .next t ∧ t.phase ≠ .busy) ∧
    (∃ t, (busyAt 81 .done).phase = .busy ∧ step (busyAt 81 .done) = .next t ∧ t.phase ≠ .busy) :=
  ⟨by decide, ⟨_, by decide, rfl, by decide⟩, ⟨_, by decide, rfl, by decide⟩⟩

theorem witness_IdleLeftOnlyByInit :
    (inPhase .idle [.command 0x1000]).phase = .idle ∧
    (inPhase .idle [.command 0x1000]).host = .command 0x1000 :: [] ∧
    (inPhase .idle [.command 0x0000]).host = .command 0x0000 :: [] ∧
    (inPhase .idle [.command 0x0001]).host = .command 0x0001 :: [] ∧
    (0x0001 : CmdWord) ≠ 0x1000 ∧ (0x0001 : CmdWord) ≠ 0x0000 := by decide

theorem witness_EngineEnabledExactlyInBusy :
    ((busyAt 81 .done [.command 0x7000]).phase = .busy ∧
      (busyAt 81 .done [.command 0x7000]).host = .command 0x7000 :: []) ∧
    ((busyAt 0 .done).phase = .busy ∧ (busyAt 0 .done).host = []) ∧
    ((busyAt 1 .done [.wait]).phase = .busy ∧ (busyAt 1 .done [.wait]).host = .wait :: []) ∧
    (State.reset.phase ≠ .busy ∧ State.reset.host = []) ∧
    (abcDone [.wait]).phase ≠ .busy ∧ (abcDone [.wait]).host = .wait :: [] := by decide

theorem witness_LoadStep : (busyAt 0 .absorb).phase = .busy ∧ (busyAt 0 .absorb).rc.val = 0 := by decide

/-- Rounds 0, 15, 16 and 79. -/
theorem witness_RoundStep :
    ((busyAt 1 .done).phase = .busy ∧ (busyAt 1 .done).rc.val = (0 : Fin 80).val + 1 ∧
      (0 : Word) = (busyAt 1 .done).W[0]) ∧
    ((busyAt 16 .done).rc.val = (15 : Fin 80).val + 1 ∧ (0 : Word) = (busyAt 16 .done).W[15]) ∧
    ((busyAt 17 .done).rc.val = (16 : Fin 80).val + 1 ∧
      (0 : Word) = rotl ((busyAt 17 .done).W[13] ^^^ (busyAt 17 .done).W[8] ^^^ (busyAt 17 .done).W[2] ^^^
        (busyAt 17 .done).W[0]) 1) ∧
    ((busyAt 80 .done).rc.val = (79 : Fin 80).val + 1 ∧
      (0 : Word) = rotl ((busyAt 80 .done).W[76] ^^^ (busyAt 80 .done).W[71] ^^^ (busyAt 80 .done).W[65] ^^^
        (busyAt 80 .done).W[63]) 1) := by decide

theorem witness_FoldStep :
    ((busyAt 81 .absorb).phase = .busy ∧ (busyAt 81 .absorb).rc.val = 81 ∧ (busyAt 81 .absorb).after = .absorb) ∧
    ((busyAt 81 .lenblk).phase = .busy ∧ (busyAt 81 .lenblk).rc.val = 81 ∧ (busyAt 81 .lenblk).after = .lenblk) ∧
    ((busyAt 81 .done).phase = .busy ∧ (busyAt 81 .done).rc.val = 81 ∧ (busyAt 81 .done).after = .done) := by decide

theorem witness_BlockComputesCompress :
    (busyAt 0 .lenblk).phase = .busy ∧ (busyAt 0 .lenblk).rc.val = 0 ∧ 81 < 82 := by decide

/-- From the first and from the last engine step, with and without a length block to follow. -/
theorem witness_BusyPeriodEnds :
    ((busyAt 0 .lenblk [.command 0x3000]).phase = .busy ∧
      (busyAt 0 .lenblk [.command 0x3000]).host = .command 0x3000 :: []) ∧
    ((busyAt 81 .absorb [.command 0x2000]).phase = .busy ∧
      (busyAt 81 .absorb [.command 0x2000]).host = .command 0x2000 :: []) := by decide

theorem witness_ExpandFollowsRecurrence : (15 : Fin 80).val < 16 ∧ 16 ≤ (16 : Fin 80).val := by decide

/-- For the count's minimality: 55 bytes and one block. -/
theorem witness_PadBlockCount : (List.replicate 55 (0x61 : Byte)).length + 9 ≤ 64 * 1 := by decide

/-- For `abc` in its one block: its last byte, the pad byte, the zeros' ends, both length words' ends. -/
theorem witness_PaddedStreamBytes :
    0 < blockCount ([0x61, 0x62, 0x63] : List Byte).length ∧ 64 * 0 + 2 < ([0x61, 0x62, 0x63] : List Byte).length ∧
    64 * 0 + 3 = ([0x61, 0x62, 0x63] : List Byte).length ∧ 3 < 64 * 0 + 4 ∧ 64 * 0 + 55 < 64 * blockCount 3 - 8 ∧
    64 * blockCount 3 - 8 ≤ 64 * 0 + 56 ∧ 64 * 0 + 59 < 64 * blockCount 3 - 4 ∧ 64 * blockCount 3 - 4 ≤ 64 * 0 + 60 := by
  decide

/-- A run to ABSORB with one byte accepted and one refused word. -/
theorem witness_DigestIsOfTheBytesWritten :
    let s : State := inPhase .idle [.command 0x1000, .command 0x2061, .command 0x7000]
    s.phase = .idle ∧ messageAfter 3 s [] = [0x61] ∧
    ∃ t, steps 3 s = .next t ∧ t.phase = .absorb ∧ (0 : Fin 64).val < t.p.val :=
  ⟨by decide, by decide, _, rfl, by decide, by decide⟩

theorem witness_LoadedBlocksArePadBlocks :
    let s : State := full3 (hashMoves [1, 2, 3, 4, 5, 6, 7] ++ [.wait, .useDout, .command 0x0000, .reset])
    s.phase ≠ .busy ∧ ([1, 2, 3, 4, 5, 6, 7] : List Byte).length ≤ 2 ^ s.cfg.lenCtrBits - 1 ∧
    s.host = hashMoves [1, 2, 3, 4, 5, 6, 7] ++ [.wait, .useDout, .command 0x0000, .reset] ∧
    noResetAhead [.wait, .useDout, .command 0x0000, .reset] :=
  ⟨by decide, by decide, rfl, trivial⟩

theorem witness_DigestOfAnyMessage :
    let s : State := inPhase .idle (hashMoves [0x61, 0x62, 0x63] ++ readHexMoves ++ [.command 0x0000])
    s.phase ≠ .busy ∧ ([0x61, 0x62, 0x63] : List Byte).length ≤ 2 ^ s.cfg.lenCtrBits - 1 ∧
    s.host = hashMoves [0x61, 0x62, 0x63] ++ readHexMoves ++ [.command 0x0000] ∧
    ([0x61, 0x62, 0x63] : List Byte).length < 2 ^ 29 :=
  ⟨by decide, by decide, rfl, by decide⟩

/-- The host's moves for the empty message run to DONE from any ready phase. -/
theorem empty_message_done (s : State) (hp : s.phase ≠ .busy) (hh : s.host = hashMoves []) :
    ∃ t, steps (1 + (1 + 82 * (blockCount 0 - 0 / 64))) s = .next t ∧ t.phase = .done := by
  obtain ⟨u, ha, hu, hs, -⟩ := init_absorbed (rest := [.command (encode .final)]) hp hh
  obtain ⟨t, ht, -, hd, -⟩ := final_digest ha hu trivial
  exact ⟨t, (steps_add 1 _ s hs).trans ht, hd⟩

/-- Two IDLE states that differ in registers reset leaves unspecified, and a run to DONE. -/
theorem witness_UnspecifiedResetValuesReachNoPort :
    let s : State := inPhase .idle (hashMoves [])
    let s' : State := { inPhase .idle (hashMoves []) with H := abcDigest, p := 64, L := 9, rc := 81, dout := 7 }
    s.phase = .idle ∧ s'.phase = .idle ∧ s.err = s'.err ∧ s.ecode = s'.ecode ∧ s.doutWritten = false ∧
    s'.doutWritten = false ∧ s.cfg = s'.cfg ∧ s.host = s'.host ∧ ∃ n t, steps n s = .next t ∧ t.phase = .done :=
  ⟨by decide, by decide, by decide, by decide, by decide, by decide, by decide, rfl, _,
    empty_message_done _ (by decide) rfl⟩

/-- A ready state in DONE and one in ABSORB, and a run to DONE. -/
theorem witness_InitDiscardsEarlierState :
    let s : State := abcDone (hashMoves [])
    let s' : State := absorbing 5 (hashMoves [])
    s.phase ≠ .busy ∧ s'.phase ≠ .busy ∧ s.cfg = s'.cfg ∧ s.host = .command 0x1000 :: [.command 0x3000] ∧
    s'.host = .command 0x1000 :: [.command 0x3000] ∧ (∃ n t, steps (n + 1) s = .next t ∧ t.phase = .done) ∧
    s.doutPort = s'.doutPort := by
  refine ⟨by decide, by decide, by decide, by decide, by decide, ?_, rfl⟩
  exact ⟨_, empty_message_done _ (by decide) rfl⟩

/-- Three bytes absorbed: the invariant holds, and the next byte's step is a next state. -/
theorem witness_EveryStepKeepsInvariant :
    (absorbing 3 [.command 0x2004]).Inv ∧ ∃ t, step (absorbing 3 [.command 0x2004]) = .next t := by
  refine ⟨?_, _, rfl⟩
  constructor <;> decide

/-- A BUSY block whose length block is to follow. -/
theorem witness_NoStepStopsUnderInvariant : ({ busyAt 81 .lenblk with p := 56, L := 56 } : State).Inv := by
  constructor <;> decide

theorem witness_RotlRotatesLeft : 1 ≤ 1 ∧ 1 ≤ 31 ∧ 1 ≤ 31 ∧ 31 ≤ 31 ∧ 31 < 32 := by decide

/-- Both ends of the bits outside lane 0 and lane 3. -/
theorem witness_LanesOfWord :
    7 < 8 ∧ 23 < 32 ∧ ¬ (24 - 8 * (0 : Fin 4).val ≤ 23 ∧ 23 ≤ 31 - 8 * (0 : Fin 4).val) ∧
    8 < 32 ∧ ¬ (24 - 8 * (3 : Fin 4).val ≤ 8 ∧ 8 ≤ 31 - 8 * (3 : Fin 4).val) := by decide

end Sys2Proof.Tests
end

section
/-! The statements of 00_scope.md: rotation (R14), byte lanes (R15), and which step is enabled (R17, R101, R164). -/

namespace Sys2Proof.Machine

open Sys2Proof Host

/-! ## Rotation -/

/-- R14's formula is the library's left rotation at every amount below the width. -/
theorem rotl_eq_rotateLeft (x : Word) {n : Nat} (hn : n < 32) : rotl x n = x.rotateLeft n := by
  rw [BitVec.rotateLeft_def, Nat.mod_eq_of_lt hn, rotl]

theorem rotl_getLsbD (x : Word) {n i : Nat} (hn : n < 32) (hi : i < 32) :
    (rotl x n).getLsbD i = x.getLsbD ((i + (32 - n)) % 32) := by
  rw [rotl_eq_rotateLeft x hn, BitVec.getLsbD_rotateLeft_of_le hn]
  by_cases wraps : i < n
  · have source : (i + (32 - n)) % 32 = 32 - n + i := by omega
    simp [wraps, source]
  · have source : (i + (32 - n)) % 32 = i - n := by omega
    simp [wraps, source, hi]

/-- Settles O52: a word is 32 bits, so R14's mask removes nothing, and the bits are those of a left rotation. -/
theorem rotlRotatesLeft : Obligations.RotlRotatesLeft := by
  intro x n _ hn
  refine ⟨?_, fun i hi => rotl_getLsbD x (by omega) hi⟩
  have mask : (0xFFFFFFFF : Word) = BitVec.allOnes 32 := by decide
  rw [mask, BitVec.and_allOnes, rotl]

/-! ## Byte lanes -/

theorem setLane_getLsbD_outside (w : Word) (k : Fin 4) (b : Byte) {i : Nat} (hi : i < 32)
    (outside : ¬ (24 - 8 * k.val ≤ i ∧ i ≤ 31 - 8 * k.val)) : (setLane w k b).getLsbD i = w.getLsbD i := by
  rw [setLane_getLsbD w k b i hi, if_neg (by omega)]

/-- Settles O53 from the bit lemmas of a lane and of a replaced lane. -/
theorem lanesOfWord : Obligations.LanesOfWord := by
  intro w k b
  refine ⟨lane_getLsbD w k, ?_, fun i hi => setLane_getLsbD_outside w k b hi⟩
  rw [lane_setLane, if_pos rfl]

/-! ## The enabled step -/

theorem internalStep_of_busy {s : State} (hp : s.phase = .busy) : internalStep s = engineStep s := if_pos hp

theorem internalStep_of_ready {s : State} (hp : s.phase ≠ .busy) : internalStep s = s := if_neg hp

theorem engineStep_withHost (s : State) (rest : List HostMove) :
    engineStep { s with host := rest } = { engineStep s with host := rest } := by
  obtain ⟨-, -, -, -, -, -, -, -, hmisused⟩ := engineStep_frame s
  rw [engineStep_hostSide s rest s.doutMisused, ← hmisused]

/-- What the host does next does not change which step is enabled, nor what it does to the core (R164). -/
theorem internalStep_withHost (s : State) (rest : List HostMove) :
    internalStep { s with host := rest } = { internalStep s with host := rest } := by
  by_cases hp : s.phase = .busy
  · rw [internalStep_of_busy hp, ← engineStep_withHost]
    exact internalStep_of_busy hp
  · rw [internalStep_of_ready hp]
    exact internalStep_of_ready hp

/-- Settles O35: the handshake's equation for each port value, with the engine step's frame for what a held command sees. -/
theorem engineEnabledExactlyInBusy : Obligations.EngineEnabledExactlyInBusy := by
  intro s
  refine ⟨fun hp w rest hh => ?held, fun hp hh => ?busyNothing, fun hp rest hh => ?busyWait,
    fun hp hh => ?readyNothing, fun hp rest hh => ?readyWait⟩
  case held =>
    obtain ⟨-, herr, hecode, hdout, -, hhost, hfaultLog, -, -⟩ := engineStep_frame s
    exact ⟨step_busy hp hh, hhost, herr, hecode, hfaultLog, hdout⟩
  case busyNothing => rw [step_nothing hh, internalStep_of_busy hp]
  case busyWait => rw [step_wait hh, internalStep_withHost, internalStep_of_busy hp]
  case readyNothing => rw [step_nothing hh, internalStep_of_ready hp]
  case readyWait => rw [step_wait hh, internalStep_withHost, internalStep_of_ready hp]

end Sys2Proof.Machine
end

section
/-! The statements of 10_state.md about who writes what (R21 to R33) and about the ports (R40, R41, R44). -/

namespace Sys2Proof.Machine

open Sys2Proof Host

/-! ## What each command leaves unchanged -/

section
variable {i : Instr} {s t : State} (he : CommandEffect i s t)
include he

/-- No command writes the engine's registers, the configuration or the host's side (R22, R23; logs 2, 3, 5). -/
theorem CommandEffect.engine_host_kept :
    t.a = s.a ∧ t.b = s.b ∧ t.c = s.c ∧ t.d = s.d ∧ t.e = s.e ∧ t.W = s.W ∧ t.cfg = s.cfg ∧ t.host = s.host ∧
      t.doutMisused = s.doutMisused := by
  cases he <;> simp

theorem CommandEffect.H_kept (hi : i ≠ .init) : t.H = s.H := by
  cases he with
  | init => exact absurd rfl hi
  | _ => simp

theorem CommandEffect.p_L_kept (hi : i ≠ .init) (hw : ∀ b, i ≠ .wrbyte b) : t.p = s.p ∧ t.L = s.L := by
  cases he with
  | init => exact absurd rfl hi
  | wrbyte b => exact absurd rfl (hw b)
  | _ => simp

theorem CommandEffect.M_kept (hi : i ≠ .init) (hf : i ≠ .final) (hw : ∀ b, i ≠ .wrbyte b) : t.M = s.M := by
  cases he with
  | init => exact absurd rfl hi
  | final => exact absurd rfl hf
  | wrbyte b => exact absurd rfl (hw b)
  | _ => simp

theorem CommandEffect.control_kept (hf : i ≠ .final) (hw : ∀ b, i ≠ .wrbyte b) :
    t.rc = s.rc ∧ t.after = s.after ∧ (i ≠ .init → t.phase = s.phase) := by
  cases he with
  | final => exact absurd rfl hf
  | wrbyte b => exact absurd rfl (hw b)
  | _ => simp

theorem CommandEffect.dout_kept (hr : ∀ n, i ≠ .rdword n ∧ i ≠ .rdbyte n ∧ i ≠ .rdhex n) :
    t.dout = s.dout ∧ t.doutWritten = s.doutWritten := by
  cases he with
  | rdword k => exact absurd rfl (hr k).1
  | rdbyte j => exact absurd rfl (hr j).2.1
  | rdhex n => exact absurd rfl (hr n).2.2
  | _ => simp

/-- A command other than INIT writes the error record only along with the fault record (R203; log 6). -/
theorem CommandEffect.errorRecord_kept (hi : i ≠ .init) (hlog : t.faultLog = s.faultLog) :
    t.err = s.err ∧ t.ecode = s.ecode := by
  cases he with
  | init => exact absurd rfl hi
  | packerSequence | readSequence | range | length => simp at hlog
  | _ => simp

end

/-- Settles O32, frame by frame. -/
theorem commandFrames : Obligations.CommandFrames := by
  intro i s t hx
  have he := exec_effect hx
  exact ⟨he.engine_host_kept, he.H_kept, he.p_L_kept, fun hi hf hw j => by rw [he.M_kept hi hf hw], he.control_kept,
    he.dout_kept, he.errorRecord_kept⟩

/-! ## The words of the commands (R73) -/

/-- A word that decodes to a command is that command's encoding. -/
theorem eq_encode_of_decode {w : CmdWord} {i : Instr} (hd : decode w = .cmd i) : w = encode i := by
  obtain ⟨hop, hrsv, harg⟩ := decode_cmd_fields hd
  apply word_ext_of_fields
  · rw [hop, opField_encode]
  · rw [hrsv, rsvField_encode]
  · rw [harg, argField_encode]

/-- The two halves of an encoding: the opcode above a zero reserved field, and the operand. -/
theorem encode_div_mod (i : Instr) :
    (encode i).toNat / 0x100 = 0x10 * i.opcode.toNat ∧ (encode i).toNat % 0x100 = i.operand.toNat := by
  rw [encode_toNat]
  omega

/-! ## H (R21) -/

theorem CommandEffect.init_eq {s t : State} (he : CommandEffect .init s t) (hp : s.phase ≠ .busy) :
    t = s.startMessage := by
  cases he with
  | held _ hb => exact absurd hb hp
  | init => rfl
  | packerSequence _ hi => simp at hi
  | readSequence _ hi => simp at hi
  | range _ _ hi => simp at hi

/-- Of the engine's steps FOLD alone writes H (R154, R156, R158). -/
theorem engineStep_H_of_ne {s : State} (h : (engineStep s).H ≠ s.H) :
    s.rc.val = 81 ∧ (engineStep s).H = foldHash s.H s.a s.b s.c s.d s.e := by
  have hx := engineStep_effect s
  generalize engineStep s = t at h hx
  cases hx with
  | load => exact absurd rfl h
  | round => exact absurd rfl h
  | fold hrc => exact ⟨hrc, engineFold_H s⟩

/-- Settles O27: no command but INIT and no engine step but FOLD writes H. -/
theorem hashStateWriters : Obligations.HashStateWriters := by
  intro s t hx hH
  cases step_effect hx with
  | reset rest hh => exact .inl ⟨rest, hh⟩
  | engine hb hh =>
    obtain ⟨hrc, hfold⟩ := engineStep_H_of_ne hH
    exact .inr (.inr ⟨hb, hrc, hfold⟩)
  | quiet => exact absurd rfl hH
  | illegal => exact absurd rfl hH
  | command hp w rest hh i hd he =>
    by_cases hi : i = .init
    · subst hi
      refine .inr (.inl ⟨hp, ⟨rest, ?_⟩, ?_⟩)
      · rw [hh, eq_encode_of_decode hd]; rfl
      · rw [he.init_eq hp]; rfl
    · exact absurd (he.H_kept hi) hH

/-! ## L (R28) -/

/-- Settles O30: the engine keeps L, and of the commands INIT and an accepted WRBYTE alone write it. -/
theorem lengthCounterWriters : Obligations.LengthCounterWriters := by
  intro s t hx hL
  cases step_effect hx with
  | reset rest hh => exact .inl ⟨rest, hh⟩
  | engine hb hh => exact absurd (engineStep_frame s).1 hL
  | quiet => exact absurd rfl hL
  | illegal => exact absurd rfl hL
  | command hp w rest hh i hd he =>
    have hw := eq_encode_of_decode hd
    cases he with
    | init => exact .inr (.inl ⟨hp, ⟨rest, by rw [hh, hw]; rfl⟩, rfl⟩)
    | wrbyte b ha hl pos hpos =>
      refine .inr (.inr ⟨ha, hl, by simp, w, rest, hh, ?_⟩)
      rw [hw, (encode_div_mod _).1]; rfl
    | _ => simp at hL

/-! ## dout (R32, R44) -/

/-- A read command that writes dout is in DONE with its index in range (R184 to R186), and records nothing. -/
theorem CommandEffect.of_dout_ne {i : Instr} {s t : State} (he : CommandEffect i s t)
    (hdout : t.dout ≠ s.dout ∨ t.doutWritten ≠ s.doutWritten) :
    s.phase = .done ∧ t.faultLog = s.faultLog ∧ t.doutWritten = true ∧
      ((∃ k, i = .rdword k ∧ k.toNat < 5) ∨ (∃ j, i = .rdbyte j ∧ j.toNat < 20) ∨ (∃ n, i = .rdhex n ∧ n.toNat < 40)) := by
  cases he with
  | rdword k hp hk => exact ⟨hp, rfl, rfl, .inl ⟨k, rfl, hk⟩⟩
  | rdbyte j hp hj => exact ⟨hp, rfl, rfl, .inr (.inl ⟨j, rfl, hj⟩)⟩
  | rdhex n hp hn => exact ⟨hp, rfl, rfl, .inr (.inr ⟨n, rfl, hn⟩)⟩
  | _ => simp at hdout

/-- Settles O28: the engine keeps dout and the mark, and of the commands a read that succeeds alone writes them. -/
theorem doutWriters : Obligations.DoutWriters := by
  intro s t hx hdout
  cases step_effect hx with
  | reset rest hh => exact .inl ⟨rest, hh⟩
  | engine hb hh =>
    obtain ⟨-, -, -, hd, -, -, -, hw, -⟩ := engineStep_frame s
    simp [hd, hw] at hdout
  | quiet => simp at hdout
  | illegal => simp at hdout
  | command hp w rest hh i hd he =>
    obtain ⟨hdone, hlog, hwritten, hread⟩ := he.of_dout_ne hdout
    have hw := eq_encode_of_decode hd
    obtain ⟨hop, harg⟩ := encode_div_mod i
    refine .inr ⟨hdone, hlog, hwritten, w, rest, hh, ?_⟩
    rw [hw, hop, harg]
    rcases hread with ⟨k, rfl, hk⟩ | ⟨j, rfl, hj⟩ | ⟨n, rfl, hn⟩
    · exact .inl ⟨rfl, Nat.le_of_lt_succ hk⟩
    · exact .inr (.inl ⟨rfl, Nat.le_of_lt_succ hj⟩)
    · exact .inr (.inr ⟨rfl, Nat.le_of_lt_succ hn⟩)

/-! ## The dout port (R41, R44, U2) -/

theorem internalStep_hostSide (s : State) (h : List HostMove) (m : Bool) :
    internalStep { s with host := h, doutMisused := m } = { internalStep s with host := h, doutMisused := m } := by
  by_cases hb : s.phase = .busy
  · rw [internalStep_of_busy hb, ← engineStep_hostSide]
    exact internalStep_of_busy hb
  · rw [internalStep_of_ready hb]
    exact internalStep_of_ready hb

/-- The step in which the host uses the port. -/
theorem step_useDout_eq {s : State} {rest : List HostMove} (hh : s.host = .useDout :: rest) :
    step s = .next { internalStep s with host := rest, doutMisused := s.doutMisused || !s.doutWritten } := by
  rw [step_useDout hh, ← internalStep_hostSide]
  rfl

theorem internalStep_dout (s : State) : (internalStep s).dout = s.dout := by
  obtain ⟨-, -, -, hdout, -⟩ := engineStep_frame s
  unfold internalStep
  split
  · exact hdout
  · rfl

/-- The record of U2 changes only by a use of the port before a read. -/
theorem HostSide.useDout_of_misused_ne {s : State} {rest : List HostMove} {m : Bool} (hs : HostSide s rest m)
    (hm : m ≠ s.doutMisused) : s.doutWritten = false ∧ m = true ∧ ∃ rest, s.host = .useDout :: rest := by
  cases hs with
  | held => exact absurd rfl hm
  | wait => exact absurd rfl hm
  | useDout hh =>
    have unread : s.doutWritten = false := by
      by_contra hw
      simp [hw] at hm
    exact ⟨unread, by simp [unread], _, hh⟩

/-- Settles O29: the use is the internal step with the host's side written, and nothing else writes the record. -/
theorem doutPortShowsRegister : Obligations.DoutPortShowsRegister := by
  refine ⟨fun s => rfl, fun s rest hh => ?use, fun s t hx hm => ?record⟩
  case use =>
    refine ⟨_, step_useDout_eq hh, internalStep_dout s, fun hb => ?_, fun hb => ?_⟩
    · rw [internalStep_of_busy hb]
    · rw [internalStep_of_ready hb]
  case record =>
    cases step_effect hx with
    | reset => exact absurd rfl hm
    | engine hb hs => exact hs.useDout_of_misused_ne hm
    | quiet hp hs hc => exact hs.useDout_of_misused_ne hm
    | illegal => exact absurd rfl hm
    | command hp w rest hh i hd he =>
      obtain ⟨-, -, -, -, -, -, -, -, hkept⟩ := he.engine_host_kept
      exact absurd hkept hm

/-! ## The status port (R40) -/

/-- A field above `m` bits counts `2 ^ m` times. -/
theorem toNat_append_eq_add {n m : Nat} (x : BitVec n) (y : BitVec m) :
    (x ++ y).toNat = 2 ^ m * x.toNat + y.toNat := by
  rw [BitVec.toNat_append, Nat.shiftLeft_eq, Nat.mul_comm, Nat.two_pow_add_eq_or_of_lt y.isLt]

/-- The port's number, by the numbers of its fields. -/
theorem State.statusPort_toNat (s : State) :
    s.statusPort.toNat = s.phase.code.toNat + 4 * s.ready.toNat + 8 * s.err.toNat + 16 * s.ecode.code.toNat := by
  have hzero : (0 : BitVec 1).toNat = 0 := rfl
  simp only [State.statusPort, toNat_append_eq_add, BitVec.toNat_ofBool, hzero]
  omega

/-- Settles O54, field by field. -/
theorem statusPortLayout : Obligations.StatusPortLayout := by
  intro s
  rw [State.statusPort_toNat]
  refine congrArg₂ _ (congrArg₂ _ (congrArg₂ _ ?phase ?ready) ?err) (congrArg _ ?ecode)
  case phase => cases s.phase <;> rfl
  case ready =>
    unfold State.ready
    cases s.phase <;> rfl
  case err => cases s.err <;> rfl
  case ecode => cases s.ecode <;> rfl

end Sys2Proof.Machine
end

section
/-! The invariant of 10_state.md (R25 to R28, R33): what it comes to in each phase, that every step keeps it, and that no
step stops under it (R26, R163, R240). -/

namespace Sys2Proof.Machine

open Sys2Proof Host

/-! ## The error record (R33, R203) -/

/-- The part of the invariant that speaks of the error record. -/
structure State.ErrorRecorded (s : State) : Prop where
  err_iff : s.err = true ↔ s.ecode ≠ .none
  logged : s.err = true → s.ecode ∈ s.faultLog

theorem State.Inv.errorRecorded {s : State} (h : s.Inv) : s.ErrorRecorded := ⟨h.err_iff, h.ecode_logged⟩

theorem State.ErrorRecorded.congr {s t : State} (h : s.ErrorRecorded) (herr : t.err = s.err)
    (hecode : t.ecode = s.ecode) (hlog : t.faultLog = s.faultLog) : t.ErrorRecorded := by
  constructor <;> rw [herr, hecode]
  · exact h.err_iff
  · rw [hlog]; exact h.logged

theorem State.ErrorRecorded.of_clear {s : State} (herr : s.err = false) (hecode : s.ecode = .none) :
    s.ErrorRecorded := by
  constructor <;> simp [herr, hecode]

theorem State.ErrorRecorded.raise {s : State} (h : s.ErrorRecorded) {code : ErrCode} (hc : code ≠ .none) :
    (s.raise code).ErrorRecorded := by
  cases herr : s.err with
  | false => constructor <;> simp [herr, hc]
  | true =>
    have recorded : s.ecode ≠ .none := h.err_iff.mp herr
    have logged : s.ecode ∈ s.faultLog := h.logged herr
    constructor <;> simp [herr, recorded, logged]

/-! ## The invariant in each phase (R26, R27) -/

theorem State.Inv.of_idle {s : State} (hphase : s.phase = .idle) (hrec : s.ErrorRecorded) : s.Inv := by
  refine ⟨?_, ?_, ?_, ?_, ?_, ?_, ?_, hrec.err_iff, hrec.logged⟩ <;> simp [hphase]

theorem State.Inv.of_absorb {s : State} (hphase : s.phase = .absorb) (hp : s.p.val < 64) (hpL : s.p.val = s.L % 64)
    (htail : ∀ j : Fin 64, s.p.val ≤ j.val → blockByte s.M j = 0) (hL : s.L ≤ s.cfg.maxLen)
    (hrec : s.ErrorRecorded) : s.Inv := by
  refine ⟨fun _ => ⟨hp, hpL⟩, fun _ => htail, ?_, ?_, ?_, ?_, fun _ => hL, hrec.err_iff, hrec.logged⟩ <;>
    simp [hphase]

/-- BUSY on a block that the 64th byte filled. -/
theorem State.Inv.of_busy_full {s : State} (hphase : s.phase = .busy) (hafter : s.after = .absorb)
    (hp : s.p.val = 64) (hpL : s.L % 64 = 0) (hpos : 0 < s.L) (hL : s.L ≤ s.cfg.maxLen) (hrec : s.ErrorRecorded) :
    s.Inv := by
  refine ⟨?_, ?_, fun _ _ => ⟨hp, hpL, hpos⟩, ?_, ?_, ?_, fun _ => hL, hrec.err_iff, hrec.logged⟩ <;>
    simp [hphase, hafter]

/-- BUSY on a block after FINAL. -/
theorem State.Inv.of_busy_final {s : State} (hphase : s.phase = .busy) (hafter : s.after ≠ .absorb)
    (hp : s.p.val < 64) (hpL : s.p.val = s.L % 64) (hlenblk : s.after = .lenblk → 56 ≤ s.p.val)
    (hL : s.L ≤ s.cfg.maxLen) (hrec : s.ErrorRecorded) : s.Inv := by
  refine ⟨?_, ?_, ?_, fun _ _ => ⟨hp, hpL⟩, fun _ => hlenblk, ?_, fun _ => hL, hrec.err_iff, hrec.logged⟩ <;>
    simp [hphase, hafter]

theorem State.Inv.of_done {s : State} (hphase : s.phase = .done) (hp : s.p.val < 64) (hL : s.L ≤ s.cfg.maxLen)
    (hrec : s.ErrorRecorded) : s.Inv := by
  refine ⟨?_, ?_, ?_, ?_, ?_, fun _ => hp, fun _ => hL, hrec.err_iff, hrec.logged⟩ <;> simp [hphase]

/-- Settles O49: reset leaves IDLE with a clear error record. -/
theorem invariantAtReset : Obligations.InvariantAtReset :=
  .of_idle rfl (.of_clear rfl rfl)

/-! ## What a step does to it -/

/-- The invariant speaks of the packer, the length and the error record alone. -/
theorem State.Inv.congr {s t : State} (h : s.Inv) (hphase : t.phase = s.phase) (hafter : t.after = s.after)
    (hp : t.p = s.p) (hL : t.L = s.L) (hM : t.M = s.M) (hcfg : t.cfg = s.cfg) (hrec : t.ErrorRecorded) : t.Inv := by
  obtain ⟨habsorb, htail, hfull, hfinal, hlenblk, hdone, hlength, -, -⟩ := h
  refine ⟨?_, ?_, ?_, ?_, ?_, ?_, ?_, hrec.err_iff, hrec.logged⟩ <;>
    simpa only [hphase, hafter, hp, hL, hM, hcfg]

theorem State.Inv.raise {s : State} (h : s.Inv) {code : ErrCode} (hc : code ≠ .none) : (s.raise code).Inv :=
  h.congr rfl rfl rfl rfl rfl rfl (h.errorRecorded.raise hc)

theorem State.Inv.writeDout {s : State} (h : s.Inv) (v : Word) : (s.writeDout v).Inv :=
  h.congr rfl rfl rfl rfl rfl rfl (h.errorRecorded.congr rfl rfl rfl)

theorem State.Inv.startMessage (s : State) : s.startMessage.Inv :=
  .of_absorb rfl (by simp) rfl (fun j _ => blockByte_zero j) (Nat.zero_le _) (.of_clear rfl rfl)

/-- WRBYTE below the maximum length (R126): the new byte stands before the zero tail, or fills the block. -/
theorem State.Inv.appendByte {s : State} (h : s.Inv) (b : Byte) (ha : s.phase = .absorb) (hl : s.L ≠ s.cfg.maxLen)
    (pos : Fin 64) (hpos : s.p.val = pos.val) : (s.appendByte b pos).Inv := by
  have hpL : pos.val = s.L % 64 := hpos ▸ (h.absorb_p ha).2
  have hL : s.L + 1 ≤ s.cfg.maxLen := by
    have := h.length_le (by simp [ha])
    omega
  have hrec : (s.appendByte b pos).ErrorRecorded := h.errorRecorded.congr (by simp) (by simp) (by simp)
  by_cases full : pos.val + 1 = 64
  · refine .of_busy_full (by simp [full]) (by simp [full]) (by simp [full]) ?_ (by simp) (by simpa using hL) hrec
    simp only [State.appendByte_L]
    omega
  · refine .of_absorb (by simp [full, ha]) ?_ ?_ ?_ (by simpa using hL) hrec
    · simp only [State.appendByte_p, Fin.val_succ]
      omega
    · simp only [State.appendByte_p, State.appendByte_L, Fin.val_succ]
      omega
    · intro j hj
      simp only [State.appendByte_p, Fin.val_succ] at hj
      have behind : j ≠ pos := fun e => by subst e; omega
      rw [State.appendByte_M, blockByte_setBlockByte, if_neg behind]
      exact h.absorb_tail ha j (by omega)

/-- FINAL (R127): the length block follows only where the length words do not fit behind the pad byte. -/
theorem State.Inv.padMessage {s : State} (h : s.Inv) (ha : s.phase = .absorb) (pos : Fin 64)
    (hpos : s.p.val = pos.val) : (s.padMessage pos).Inv := by
  obtain ⟨hp, hpL⟩ := h.absorb_p ha
  have hL := h.length_le (by simp [ha])
  refine .of_busy_final (by simp) ?_ (by simpa using hp) (by simpa using hpL) ?_ (by simpa using hL)
    (h.errorRecorded.congr (by simp) (by simp) (by simp))
  · rw [State.padMessage_after]
    split <;> simp
  · intro hlenblk
    have overflow : ¬ pos.val ≤ 55 := fun fits => by simp [fits] at hlenblk
    rw [State.padMessage_p]
    omega

/-- FOLD with block completion (R158, R159). -/
theorem State.Inv.engineFold {s : State} (h : s.Inv) (hb : s.phase = .busy) : (engineFold s).Inv := by
  have hL := h.length_le (by simp [hb])
  have hrec : (Machine.engineFold s).ErrorRecorded := h.errorRecorded.congr (by simp) (by simp) (by simp)
  cases ha : s.after with
  | absorb =>
    obtain ⟨-, hL64, -⟩ := h.busy_full hb ha
    exact .of_absorb (by simp [ha]) (by simp [ha]) (by simp [ha, hL64]) (fun j _ => by simp only [engineFold_M, ha, blockByte_zero])
      (by simpa using hL) hrec
  | lenblk =>
    obtain ⟨hp, hpL⟩ := h.busy_final hb (by simp [ha])
    exact .of_busy_final (by simp [ha, hb]) (by simp [ha]) (by simpa [ha] using hp) (by simpa [ha] using hpL)
      (by simp [ha]) (by simpa using hL) hrec
  | done =>
    obtain ⟨hp, -⟩ := h.busy_final hb (by simp [ha])
    exact .of_done (by simp [ha]) (by simpa [ha] using hp) (by simpa using hL) hrec

theorem State.Inv.engineStep {s : State} (h : s.Inv) (hb : s.phase = .busy) : (engineStep s).Inv := by
  have hx := engineStep_effect s
  generalize Machine.engineStep s = t at hx
  cases hx with
  | load => exact h.congr rfl rfl rfl rfl rfl rfl (h.errorRecorded.congr rfl rfl rfl)
  | round => exact h.congr rfl rfl rfl rfl rfl rfl (h.errorRecorded.congr rfl rfl rfl)
  | fold => exact h.engineFold hb

theorem State.Inv.command {i : Instr} {s t : State} (h : s.Inv) (he : CommandEffect i s t) : t.Inv := by
  cases he with
  | held => exact h
  | nop => exact h
  | init => exact .startMessage s
  | wrbyte b ha hl pos hpos => exact h.appendByte b ha hl pos hpos
  | final ha pos hpos => exact h.padMessage ha pos hpos
  | rdword => exact h.writeDout _
  | rdbyte => exact h.writeDout _
  | rdhex => exact h.writeDout _
  | packerSequence => exact h.raise (by decide)
  | readSequence => exact h.raise (by decide)
  | range => exact h.raise (by decide)
  | length => exact h.raise (by decide)

/-- The host's side of a state is no part of the invariant. -/
theorem State.Inv.hostSide {s : State} (h : s.Inv) (rest : List HostMove) (m : Bool) :
    ({ s with host := rest, doutMisused := m } : State).Inv :=
  h.congr rfl rfl rfl rfl rfl rfl (h.errorRecorded.congr rfl rfl rfl)

/-- Settles O50, by what a step can do: each update a step is made of keeps the invariant. -/
theorem everyStepKeepsInvariant : Obligations.EveryStepKeepsInvariant := by
  intro s t h hx
  cases step_effect hx with
  | reset rest hh => exact .of_idle rfl (.of_clear rfl rfl)
  | engine hb hh => exact (h.engineStep hb).hostSide _ _
  | quiet hp hh hc => exact h.hostSide _ _
  | illegal hp w rest hh why hd => exact (h.hostSide rest s.doutMisused).raise (by decide)
  | command hp w rest hh i hd he => exact (h.hostSide rest s.doutMisused).command he

/-! ## The one stop (R26; log 9) -/

theorem atPosition_past {s : State} {rule : Fin 64 → Result} (h : s.p.val = 64) :
    atPosition s rule = .fault .positionPastBlock := by
  simp [atPosition, h]

theorem exec_final_absorb {s : State} (ha : s.phase = .absorb) :
    exec .final s = atPosition s fun pos => .next (s.padMessage pos) := by
  simp [exec, execFinal, whenLegal, ha, onlyAbsorb]

theorem exec_wrbyte_absorb {s : State} (b : Byte) (ha : s.phase = .absorb) (hl : s.L ≠ s.cfg.maxLen) :
    exec (.wrbyte b) s = atPosition s fun pos => .next (s.appendByte b pos) := by
  simp [exec, execWrbyte, whenLegal, ha, onlyAbsorb, hl]

/-- Settles O20: past the LENGTH check both commands ask for the position in the block. -/
theorem packerStopsPastBlock : Obligations.PackerStopsPastBlock := by
  intro s ha hp
  refine ⟨?_, fun b hl => ?_⟩
  · rw [exec_final_absorb ha, atPosition_past hp]
  · rw [exec_wrbyte_absorb b ha hl, atPosition_past hp]

/-! ## Nothing else stops (R163, R240) -/

theorem whenLegal_total {table : Phase → Legality} {s : State} {rule : State → Result}
    (h : table s.phase = .legal → ∃ t, rule s = .next t) : ∃ t, whenLegal table s rule = .next t := by
  unfold whenLegal
  cases htable : table s.phase with
  | legal => exact h htable
  | sequence => exact ⟨_, rfl⟩
  | held => exact ⟨_, rfl⟩

theorem atPosition_total {s : State} {rule : Fin 64 → Result} (hp : s.p.val < 64)
    (h : ∀ pos, ∃ t, rule pos = .next t) : ∃ t, atPosition s rule = .next t := by
  rw [atPosition_eq ⟨s.p.val, hp⟩ rfl]
  exact h _

theorem readInto_total {n : Nat} (index : Option (Fin n)) (value : Fin n → Word) (s : State) :
    ∃ t, readInto index value s = .next t := by
  cases index with
  | none => exact ⟨_, rfl⟩
  | some i => exact ⟨_, rfl⟩

theorem absorb_of_onlyAbsorb_legal {ph : Phase} (h : onlyAbsorb ph = .legal) : ph = .absorb := by
  cases ph <;> simp [onlyAbsorb] at h ⊢

/-- With a position inside the block in ABSORB, every command answers a next state. -/
theorem exec_total {s : State} (hp : s.phase = .absorb → s.p.val < 64) (i : Instr) : ∃ t, exec i s = .next t := by
  cases i with
  | nop => exact whenLegal_total fun _ => ⟨s, rfl⟩
  | init =>
    unfold exec execInit
    exact whenLegal_total fun _ => ⟨_, rfl⟩
  | wrbyte b =>
    unfold exec execWrbyte
    refine whenLegal_total fun legal => ?_
    split
    · exact ⟨_, rfl⟩
    · exact atPosition_total (hp (absorb_of_onlyAbsorb_legal legal)) fun _ => ⟨_, rfl⟩
  | final =>
    unfold exec execFinal
    exact whenLegal_total fun legal => atPosition_total (hp (absorb_of_onlyAbsorb_legal legal)) fun _ => ⟨_, rfl⟩
  | rdword k => exact whenLegal_total fun _ => readInto_total _ _ _
  | rdbyte j => exact whenLegal_total fun _ => readInto_total _ _ _
  | rdhex n => exact whenLegal_total fun _ => readInto_total _ _ _

theorem execute_total {s : State} (hp : s.phase = .absorb → s.p.val < 64) (w : CmdWord) :
    ∃ t, execute w s = .next t := by
  unfold execute
  cases decode w with
  | illegal why => exact ⟨_, rfl⟩
  | cmd i => exact exec_total hp i

/-- Settles O51: a step stops only if the command it accepts does, and in ABSORB the invariant puts p inside the block. -/
theorem noStepStopsUnderInvariant : Obligations.NoStepStopsUnderInvariant := by
  intro s h
  match hh : s.host with
  | [] => exact ⟨_, step_nothing hh⟩
  | .reset :: rest => exact ⟨_, step_reset hh⟩
  | .wait :: rest => exact ⟨_, step_wait hh⟩
  | .useDout :: rest => exact ⟨_, step_useDout hh⟩
  | .command w :: rest =>
    by_cases hb : s.phase = .busy
    · exact ⟨_, step_busy hb hh⟩
    · rw [step_command hb hh]
      exact execute_total (s := { s with host := rest }) (fun ha => (h.absorb_p ha).1) w

end Sys2Proof.Machine
end

section
/-! The statements of 10_state.md about whole runs (R31, R43 to R45, R180): each is a relation that one step keeps, carried
along the run, and read off at its end. -/

namespace Sys2Proof.Machine

open Sys2Proof Host

/-! ## A run, one step at a time -/

theorem steps_succ_eq_next {n : Nat} {s t : State} :
    steps (n + 1) s = .next t ↔ ∃ u, step s = .next u ∧ steps n u = .next t := by
  simp only [steps]
  cases step s <;> simp

theorem messageAfter_succ {n : Nat} {s u : State} (msg : List Byte) (h : step s = .next u) :
    messageAfter (n + 1) s msg = messageAfter n u (messageNext s msg) := by
  simp only [messageAfter, h]

/-! ## The bytes written (R31, R180) -/

/-- A state holds the bytes accepted so far after every run from one that does. -/
theorem Holds.run {n : Nat} {msg : List Byte} {s t : State} (h : Holds msg s) (hx : steps n s = .next t) :
    Holds (messageAfter n s msg) t := by
  induction n generalizing s msg with
  | zero => cases hx; exact h
  | succ n ih =>
    obtain ⟨u, hu, hx⟩ := steps_succ_eq_next.mp hx
    rw [messageAfter_succ msg hu]
    exact ih (h.step hu) hx

/-- R31's correspondence of the block with the message, in ABSORB. -/
theorem Holds.blockByte_eq {msg : List Byte} {s : State} (h : Holds msg s) (ha : s.phase = .absorb) (j : Fin 64)
    (hj : j.val < s.p.val) : msg[64 * ((s.L - s.p.val) / 64) + j.val]? = some (blockByte s.M j) := by
  have hL : s.L = msg.length := h.L (by simp [ha])
  have hp := h.absorb_p ha
  have hk : (s.L - s.p.val) / 64 = msg.length / 64 := by omega
  have hin : 64 * (msg.length / 64) + j.val < msg.length := by omega
  rw [hk, h.absorb_M ha, List.getD_eq_getElem _ _ hin, List.getElem?_eq_getElem hin]

/-- Settles O44: in IDLE a state holds every message, and a run keeps that it holds the bytes written. -/
theorem digestIsOfTheBytesWritten : Obligations.DigestIsOfTheBytesWritten := by
  intro n s t hidle hx
  have holds : Holds (messageAfter n s []) t := (Holds.of_idle hidle).run hx
  exact ⟨fun ha => ⟨holds.L (by simp [ha]), holds.blockByte_eq ha⟩, holds.done⟩

/-! ## What no port can tell apart (R44, R45) -/

theorem KeepsDout.trans {s s' u u' t t' : State} (h : KeepsDout s s' u u') (g : KeepsDout u u' t t') :
    KeepsDout s s' t t' := ⟨g.alike ∘ h.alike, g.dout ∘ h.dout⟩

/-- Alike states stay alike along every run, and an agreement on dout is kept. -/
theorem Alike.run {n : Nat} {s s' t : State} (h : Alike s s') (hx : steps n s = .next t) :
    ∃ t', steps n s' = .next t' ∧ Alike t t' ∧ KeepsDout s s' t t' := by
  induction n generalizing s s' with
  | zero => cases hx; exact ⟨s', rfl, h, id, id⟩
  | succ n ih =>
    obtain ⟨u, hu, hx⟩ := steps_succ_eq_next.mp hx
    obtain ⟨u', hu', alike, keeps⟩ := h.step hu
    obtain ⟨t', ht', alike', keeps'⟩ := ih alike hx
    exact ⟨t', steps_succ_eq_next.mpr ⟨u', hu', ht'⟩, alike', keeps.trans keeps'⟩

/-- What R43 specifies of an IDLE state is all that two of them must agree on. -/
theorem Alike.of_idle {s s' : State} (hp : s.phase = .idle) (hp' : s'.phase = .idle) (herr : s.err = s'.err)
    (hecode : s.ecode = s'.ecode) (hcfg : s.cfg = s'.cfg) (hhost : s.host = s'.host) : Alike s s' where
  phase := hp'.trans hp.symm
  err := herr.symm
  ecode := hecode.symm
  cfg := hcfg.symm
  host := hhost.symm
  started h := absurd hp h
  running h := by simp [hp] at h
  working h := by simp [hp] at h
  schedule h := by simp [hp] at h

/-- INIT sets all that a port can come to show, dout aside (R45, R105). -/
theorem Alike.startMessage {s s' : State} (hcfg : s.cfg = s'.cfg) (hhost : s.host = s'.host) :
    Alike s.startMessage s'.startMessage := by
  constructor <;> simp [hcfg, hhost]

/-- What two alike states have in common in DONE. -/
theorem Alike.H_of_done {s s' : State} (h : Alike s s') (hp : s.phase = .done) : s'.H = s.H :=
  (h.started (by simp [hp])).1

/-- Settles O47: two IDLE states are alike and agree on dout vacuously, and a run keeps both. -/
theorem unspecifiedResetValuesReachNoPort : Obligations.UnspecifiedResetValuesReachNoPort := by
  intro n s s' t hp hp' herr hecode hw hw' hcfg hhost hx
  have unread : DoutAlike s s' := ⟨hw.trans hw'.symm, fun h => by simp [hw] at h⟩
  obtain ⟨t', ht', alike, keeps⟩ := (Alike.of_idle hp hp' herr hecode hcfg hhost).run hx
  obtain ⟨written, dout⟩ := keeps.alike unread
  exact ⟨t', ht', alike.statusPort, written.symm, fun h => (dout h).symm, alike.H_of_done⟩

/-- The step that accepts INIT (R100, R105). -/
theorem step_init {s : State} {rest : List HostMove} (hp : s.phase ≠ .busy) (hh : s.host = .command 0x1000 :: rest) :
    step s = .next ({ s with host := rest } : State).startMessage := by
  have hd : decode 0x1000 = .cmd .init := decode_encode .init
  rw [step_command hp hh]
  simp only [execute, hd]
  exact exec_init hp

/-- Settles O48: after the INIT two states are alike whatever they were, and INIT does not write dout. -/
theorem initDiscardsEarlierState : Obligations.InitDiscardsEarlierState := by
  intro n s s' t rest hp hp' hcfg hhost hhost' hx
  obtain ⟨u, hu, hx⟩ := steps_succ_eq_next.mp hx
  rw [step_init hp hhost] at hu
  cases hu
  have started : Alike ({ s with host := rest } : State).startMessage ({ s' with host := rest } : State).startMessage :=
    .startMessage hcfg rfl
  obtain ⟨t', ht', alike, keeps⟩ := started.run hx
  exact ⟨t', steps_succ_eq_next.mpr ⟨_, step_init hp' hhost', ht'⟩, alike.statusPort, alike.H_of_done,
    fun hdout => (keeps.dout hdout).symm⟩

end Sys2Proof.Machine
end

section
/-! The statement of 20_memory.md: the block as bytes (R24, R50), under WRBYTE. -/

namespace Sys2Proof.Machine

open Sys2Proof Host

/-- What WRBYTE does inside the block, below the maximum length (R126). -/
theorem exec_wrbyte_inside {s : State} (b : Byte) (ha : s.phase = .absorb) (hl : s.L ≠ s.cfg.maxLen) (pos : Fin 64)
    (hpos : s.p.val = pos.val) : exec (.wrbyte b) s = .next (s.appendByte b pos) := by
  rw [exec_wrbyte_absorb b ha hl, atPosition_eq pos hpos]

/-- Settles O17: the byte WRBYTE appends replaces byte p of the block, and a replaced byte leaves the others. -/
theorem wrbyteStoresOneByte : Obligations.WrbyteStoresOneByte := by
  intro b s ha hp hl
  let pos : Fin 64 := ⟨s.p.val, hp⟩
  refine ⟨s.appendByte b pos, exec_wrbyte_inside b ha hl pos rfl, fun j => ?_⟩
  rw [State.appendByte_M, blockByte_setBlockByte]
  exact if_congr Fin.ext_iff rfl rfl

end Sys2Proof.Machine
end

section
/-! The statements of 30_encoding.md: the opcode map and its inverse (R70 to R74), the Illegal words (R75 to R77), the
assembler (R79). -/

namespace Sys2Proof

open Machine

/-! ## Decoding inverts encoding (R73, R74) -/

theorem decode_eq_cmd_iff (w : CmdWord) (i : Instr) : decode w = .cmd i ↔ encode i = w := by
  constructor
  · intro decodes
    exact (eq_encode_of_decode decodes).symm
  · rintro rfl
    exact decode_encode i

/-- Settles O1: the fields of a decoded word are those of its instruction, and the decoder reads an encoding back. -/
theorem encodingIsBijective : Obligations.EncodingIsBijective := decode_eq_cmd_iff

/-! ## Match and mask (R73) -/

/-- The mask 0xFFFF: a word decodes to `i` exactly when it is `i`'s number. -/
theorem decode_eq_cmd_iff_toNat (w : CmdWord) (i : Instr) :
    decode w = .cmd i ↔ w.toNat = 0x1000 * i.opcode.toNat + i.operand.toNat := by
  rw [decode_eq_cmd_iff, BitVec.toNat_eq, encode_toNat, eq_comm]

/-- The mask 0xFF00: the byte above the operand is the opcode and a zero reserved field. -/
theorem decode_eq_cmd_iff_bytes (w : CmdWord) (i : Instr) :
    decode w = .cmd i ↔ w.toNat / 0x100 = 0x10 * i.opcode.toNat ∧ w.toNat % 0x100 = i.operand.toNat := by
  have operandLt := i.operand.isLt
  rw [decode_eq_cmd_iff_toNat]
  omega

/-- Settles O2: each command's row is the match and mask at its opcode, and the words left over are the Illegal ones. -/
theorem decodeFollowsMatchAndMask : Obligations.DecodeFollowsMatchAndMask := by
  intro w
  exact ⟨decode_eq_cmd_iff_toNat w .nop, decode_eq_cmd_iff_toNat w .init, fun b => decode_eq_cmd_iff_bytes w (.wrbyte b),
    decode_eq_cmd_iff_toNat w .final, fun k => decode_eq_cmd_iff_bytes w (.rdword k),
    fun j => decode_eq_cmd_iff_bytes w (.rdbyte j), fun i => decode_eq_cmd_iff_bytes w (.rdhex i), decode_illegal_iff w⟩

/-- Settles O3: seven words are encodings, and three are Illegal for their opcode, reserved field and operand. -/
theorem tableWordsDecode : Obligations.TableWordsDecode :=
  ⟨decode_encode .nop, decode_encode .init, decode_encode (.wrbyte 0x61), decode_encode .final, decode_encode (.rdword 4),
    decode_encode (.rdbyte 19), decode_encode (.rdhex 39), by decide, by decide, by decide⟩

/-! ## The assembler (R79) -/

theorem assemble_eq_some_iff (i : Instr) (w : CmdWord) :
    assemble i = some w ↔ w = encode i ∧ i.wellFormed = true := by
  unfold assemble
  cases i.wellFormed <;> simp [eq_comm]

theorem assemble_of_wellFormed {i : Instr} (h : i.wellFormed = true) : assemble i = some (encode i) := if_pos h

/-- The operand ranges of R79, by mnemonic. -/
theorem Instr.wellFormed_iff (i : Instr) :
    i.wellFormed = true ↔ (∀ k, i = .rdword k → k.toNat ≤ 4) ∧ (∀ j, i = .rdbyte j → j.toNat ≤ 19) ∧
      (∀ n, i = .rdhex n → n.toNat ≤ 39) := by
  cases i <;> simp [wellFormed]

/-- Settles O4: the assembler's check is R79's ranges, and the example's seven operands pass it. -/
theorem assemblerChecksOperandRange : Obligations.AssemblerChecksOperandRange := by
  refine ⟨fun i w => ?_, assemble_of_wellFormed (i := .nop) rfl, assemble_of_wellFormed (i := .init) rfl,
    assemble_of_wellFormed (i := .wrbyte 0x61) rfl, assemble_of_wellFormed (i := .final) rfl,
    assemble_of_wellFormed (i := .rdword 4) rfl, assemble_of_wellFormed (i := .rdbyte 19) rfl,
    assemble_of_wellFormed (i := .rdhex 39) rfl⟩
  rw [assemble_eq_some_iff, Instr.wellFormed_iff]

end Sys2Proof

namespace Sys2Proof.Machine

open Sys2Proof Host

/-! ## Illegal words (R75 to R77) -/

/-- Execute's first check (R103): an Illegal word, whatever the reason, raises ILLEGAL and nothing more. -/
theorem execute_of_decode_illegal {w : CmdWord} {why : IllegalReason} (h : decode w = .illegal why) (s : State) :
    execute w s = .next (s.raise .illegal) := by
  simp only [execute, h]

/-- Settles O7: a word in R74's left-over set decodes as Illegal, and the accepted word's step is the recorded refusal. -/
theorem illegalWordRaisesIllegal : Obligations.IllegalWordRaisesIllegal := by
  intro s w rest ready presented leftOver
  obtain ⟨why, illegal⟩ := (decode_illegal_iff w).mpr leftOver
  rw [step_command ready presented, execute_of_decode_illegal illegal]
  rfl

end Sys2Proof.Machine
end

section
/-! The statements of 40_control.md: the handshake (R100, R101), the legality table (R102), the order of Execute's checks
(R103), NOP and INIT (R104, R105), and the changes of phase they add up to (R36, R102, R159). -/

namespace Sys2Proof.Machine

open Sys2Proof Host

/-! ## Execute of an accepted word (R100, R103) -/

theorem execute_of_decode_cmd {w : CmdWord} {i : Instr} (h : decode w = .cmd i) (s : State) :
    execute w s = exec i s := by
  simp only [execute, h]

/-- Settles O5: a ready core accepts the word, and Execute of a word past the decoder is its command. -/
theorem stepRunsDecodedCommand : Obligations.StepRunsDecodedCommand := by
  intro s w rest i ready presented decodes
  rw [step_command ready presented, execute_of_decode_cmd decodes]

theorem decode_of_decodeTableWord {nbits w : Nat} {i : Instr} (h : decodeTableWord nbits w = some i) :
    decode (BitVec.ofNat 16 (w % 2 ^ nbits)) = .cmd i := by
  simp only [decodeTableWord] at h
  split at h
  · split at h
    · rename_i j decodes
      rw [decodes, Option.some.inj h]
    · cases h
  · cases h

/-- Settles O6: the placed word is presented ahead of the host's moves, and accepting it leaves those. -/
theorem placedWordRunsNext : Obligations.PlacedWordRunsNext := by
  intro s w i ready inTable
  exact stepRunsDecodedCommand (s.withFetchWord 16 w) _ s.host i ready rfl (decode_of_decodeTableWord inTable)

/-! ## The legality table (R102) -/

section
variable {table : Phase → Legality} {s : State} {rule : State → Result}

theorem whenLegal_of_legal (h : table s.phase = .legal) : whenLegal table s rule = rule s := by
  simp only [whenLegal, h]

theorem whenLegal_of_sequence (h : table s.phase = .sequence) : whenLegal table s rule = .next (s.raise .sequence) := by
  simp only [whenLegal, h]

theorem whenLegal_of_held (h : table s.phase = .held) : whenLegal table s rule = .next s := by
  simp only [whenLegal, h]

end

theorem anyReadyPhase_of_ready {ph : Phase} (h : ph ≠ .busy) : anyReadyPhase ph = .legal := by
  cases ph with
  | busy => exact absurd rfl h
  | idle | absorb | done => rfl

theorem onlyAbsorb_eq_sequence {ph : Phase} (h : ph = .idle ∨ ph = .done) : onlyAbsorb ph = .sequence := by
  rcases h with rfl | rfl <;> rfl

theorem onlyDone_eq_sequence {ph : Phase} (h : ph = .idle ∨ ph = .absorb) : onlyDone ph = .sequence := by
  rcases h with rfl | rfl <;> rfl

/-- The row of the legality table that a command stands in. -/
def legalityRow : Instr → Phase → Legality
  | .nop | .init => anyReadyPhase
  | .wrbyte _ | .final => onlyAbsorb
  | .rdword _ | .rdbyte _ | .rdhex _ => onlyDone

/-- Every command asks its row of the table first (R103). -/
theorem exec_eq_whenLegal (i : Instr) (s : State) : ∃ rule, exec i s = whenLegal (legalityRow i) s rule := by
  cases i with
  | nop => exact ⟨_, execNop.eq_def s⟩
  | init => exact ⟨_, execInit.eq_def s⟩
  | wrbyte b => exact ⟨_, execWrbyte.eq_def b s⟩
  | final => exact ⟨_, execFinal.eq_def s⟩
  | rdword k => exact ⟨_, execRdword.eq_def k s⟩
  | rdbyte j => exact ⟨_, execRdbyte.eq_def j s⟩
  | rdhex n => exact ⟨_, execRdhex.eq_def n s⟩

theorem exec_of_sequence {i : Instr} {s : State} (h : legalityRow i s.phase = .sequence) :
    exec i s = .next (s.raise .sequence) := by
  obtain ⟨rule, asksTable⟩ := exec_eq_whenLegal i s
  rw [asksTable, whenLegal_of_sequence h]

theorem legalityRow_busy (i : Instr) : legalityRow i .busy = .held := by
  cases i <;> rfl

/-- The BUSY column: every command is held (R101; log 7). -/
theorem exec_of_busy (i : Instr) {s : State} (hp : s.phase = .busy) : exec i s = .next s := by
  obtain ⟨rule, asksTable⟩ := exec_eq_whenLegal i s
  have held : legalityRow i s.phase = .held := by rw [hp, legalityRow_busy]
  rw [asksTable, whenLegal_of_held held]

theorem exec_packer_sequence {i : Instr} {s : State} (hi : (∃ b, i = .wrbyte b) ∨ i = .final)
    (hp : s.phase = .idle ∨ s.phase = .done) : exec i s = .next (s.raise .sequence) := by
  have row : legalityRow i = onlyAbsorb := by rcases hi with ⟨b, rfl⟩ | rfl <;> rfl
  exact exec_of_sequence (row ▸ onlyAbsorb_eq_sequence hp)

theorem exec_read_sequence {i : Instr} {s : State} (hi : ∃ n, i = .rdword n ∨ i = .rdbyte n ∨ i = .rdhex n)
    (hp : s.phase = .idle ∨ s.phase = .absorb) : exec i s = .next (s.raise .sequence) := by
  have row : legalityRow i = onlyDone := by rcases hi with ⟨n, rfl | rfl | rfl⟩ <;> rfl
  exact exec_of_sequence (row ▸ onlyDone_eq_sequence hp)

/-- Settles O11, cell by cell of the table. -/
theorem illegalPhaseRaisesSequence : Obligations.IllegalPhaseRaisesSequence :=
  fun i _ => ⟨exec_of_busy i, exec_packer_sequence, exec_read_sequence⟩

/-! ## NOP and INIT (R104, R105) -/

theorem exec_nop (s : State) : exec .nop s = .next s := by
  by_cases hp : s.phase = .busy
  · exact exec_of_busy .nop hp
  · exact whenLegal_of_legal (anyReadyPhase_of_ready hp)

/-- NOP, INIT and FINAL are one word each: with any bit set below the opcode, theirs is Illegal (R76, R77). -/
theorem execute_operandless_illegal {w : CmdWord}
    (hop : w.toNat / 0x1000 = 0 ∨ w.toNat / 0x1000 = 1 ∨ w.toNat / 0x1000 = 3) (hrest : w.toNat % 0x1000 ≠ 0)
    (s : State) : execute w s = .next (s.raise .illegal) := by
  have leftOver : w.toNat / 0x100 % 0x10 ≠ 0 ∨ w.toNat % 0x100 ≠ 0 := by omega
  obtain ⟨why, illegal⟩ := (decode_illegal_iff w).mpr (.inr (leftOver.imp_right (.intro hop)))
  exact execute_of_decode_illegal illegal s

/-- Settles O14: NOP's rule in a ready phase and the hold in BUSY both answer the state itself. -/
theorem nopHasNoEffect : Obligations.NopHasNoEffect := by
  refine ⟨exec_nop, fun w hop hw s => ?_⟩
  exact execute_operandless_illegal (.inl hop) (by omega) s

theorem State.startMessage_statusPort (s : State) : s.startMessage.statusPort = 0x05 := by
  have ready : s.startMessage.ready = true := rfl
  simp [State.statusPort, ready, Phase.code, ErrCode.code]

/-- Settles O15: the state after INIT is the model's startMessage, whose update is R105's list. -/
theorem initStartsNewDigest : Obligations.InitStartsNewDigest := by
  refine ⟨fun s ready => ?_, fun _ => exec_of_busy .init, fun w hop hw s => ?_⟩
  · exact ⟨s.startMessage, exec_init ready, s.startMessage_statusPort, rfl⟩
  · exact execute_operandless_illegal (.inr (.inl hop)) (by omega) s

/-! ## The order of the checks (R103, R202, R205) -/

/-- The code of the first check that a word's fields fail in a ready state, none if they pass (R103, R202). -/
def firstRefusal (op rsv arg : Nat) (s : State) : List ErrCode :=
  if 7 ≤ op ∨ rsv ≠ 0 ∨ ((op = 0 ∨ op = 1 ∨ op = 3) ∧ arg ≠ 0) then [.illegal]
  else if ((op = 2 ∨ op = 3) ∧ s.phase ≠ .absorb) ∨ ((op = 4 ∨ op = 5 ∨ op = 6) ∧ s.phase ≠ .done) then [.sequence]
  else if (op = 4 ∧ 4 < arg) ∨ (op = 5 ∧ 19 < arg) ∨ (op = 6 ∧ 39 < arg) then [.range]
  else if op = 2 ∧ s.L = 2 ^ s.cfg.lenCtrBits - 1 then [.length]
  else []

/-- An Illegal word fails the first check, whatever the state. -/
theorem firstRefusal_of_illegal {w : CmdWord} {why : IllegalReason} (hd : decode w = .illegal why) (s : State) :
    firstRefusal (w.toNat / 0x1000) (w.toNat / 0x100 % 0x10) (w.toNat % 0x100) s = [.illegal] :=
  if_pos ((decode_illegal_iff w).mp ⟨why, hd⟩)

/-- A command records the code of the first of its own checks that fails: SEQUENCE, then RANGE, then LENGTH. -/
theorem CommandEffect.faultLog_eq {i : Instr} {s t : State} (he : CommandEffect i s t) (ready : s.phase ≠ .busy) :
    t.faultLog = s.faultLog ++ firstRefusal i.opcode.toNat 0 i.operand.toNat s := by
  cases he with
  | held _ hb => exact absurd hb ready
  | nop | init => simp [firstRefusal, Instr.opcode, Instr.operand]
  | wrbyte b hp hl =>
    have below : s.L ≠ 2 ^ s.cfg.lenCtrBits - 1 := hl
    simp [firstRefusal, Instr.opcode, hp, below]
  | final hp => simp [firstRefusal, Instr.opcode, Instr.operand, hp]
  | rdword _ hp inRange | rdbyte _ hp inRange | rdhex _ hp inRange =>
    simp [firstRefusal, Instr.opcode, Instr.operand, hp, Nat.le_of_lt_succ inRange]
  | packerSequence _ hi hp =>
    have outside : s.phase ≠ .absorb := by rcases hp with hp | hp <;> simp [hp]
    rcases hi with ⟨b, rfl⟩ | rfl <;> simp [firstRefusal, Instr.opcode, Instr.operand, outside]
  | readSequence _ hi hp =>
    have outside : s.phase ≠ .done := by rcases hp with hp | hp <;> simp [hp]
    rcases hi with ⟨n, rfl | rfl | rfl⟩ <;> simp [firstRefusal, Instr.opcode, outside]
  | range _ hp hi =>
    rcases hi with ⟨k, rfl, beyond⟩ | ⟨j, rfl, beyond⟩ | ⟨n, rfl, beyond⟩ <;>
      simp [firstRefusal, Instr.opcode, Instr.operand, hp, beyond]
  | length b hp hl =>
    have full : s.L = 2 ^ s.cfg.lenCtrBits - 1 := hl
    simp [firstRefusal, Instr.opcode, hp, full]

/-- Settles O9: the ILLEGAL check is the decoder's; a decoded word's fields are its command's opcode and operand. -/
theorem executeChecksInOrder : Obligations.ExecuteChecksInOrder := by
  intro s t w rest ready presented hx
  show t.faultLog = s.faultLog ++
    firstRefusal (w.toNat / 0x1000) (w.toNat / 0x100 % 0x10) (w.toNat % 0x100) s
  rw [step_command ready presented] at hx
  cases hd : decode w with
  | illegal why =>
    rw [execute_of_decode_illegal hd] at hx
    cases hx
    rw [firstRefusal_of_illegal hd]
    rfl
  | cmd i =>
    obtain ⟨hop, hrsv, harg⟩ := decode_cmd_fields hd
    rw [execute_of_decode_cmd hd] at hx
    rw [← opField_toNat, ← rsvField_toNat, ← argField_toNat, hop, hrsv, harg]
    exact (exec_effect hx).faultLog_eq ready

/-! ## The changes of phase (R36, R102, R159) -/

/-- Of the engine's steps only FOLD with block completion leaves the phase, as after says (R159). -/
theorem engineStep_phase_of_ne {s : State} (h : (engineStep s).phase ≠ s.phase) :
    s.rc.val = 81 ∧ ((s.after = .absorb ∧ (engineStep s).phase = .absorb) ∨
      (s.after = .done ∧ (engineStep s).phase = .done)) := by
  have hx := engineStep_effect s
  generalize engineStep s = t at h hx
  cases hx with
  | load => exact absurd rfl h
  | round => exact absurd rfl h
  | fold hrc =>
    refine ⟨hrc, ?_⟩
    rw [engineFold_phase] at h ⊢
    cases hafter : s.after with
    | absorb => exact .inl ⟨rfl, rfl⟩
    | lenblk => simp [hafter] at h
    | done => exact .inr ⟨rfl, rfl⟩

/-- Of the commands INIT, the WRBYTE that fills the block and FINAL alone leave the phase (R105, R126, R127). -/
theorem CommandEffect.phase_of_ne {i : Instr} {s t : State} (he : CommandEffect i s t) (h : t.phase ≠ s.phase) :
    (i = .init ∧ t.phase = .absorb) ∨
    (s.phase = .absorb ∧ t.phase = .busy ∧ s.p.val = 63 ∧ ∃ b, i = .wrbyte b) ∨
    (s.phase = .absorb ∧ t.phase = .busy ∧ i = .final) := by
  cases he with
  | init => exact .inl ⟨rfl, rfl⟩
  | wrbyte b ha hl pos hpos =>
    have full : pos.val + 1 = 64 := by
      by_contra inside
      simp [inside] at h
    exact .inr (.inl ⟨ha, by simp [full], by omega, b, rfl⟩)
  | final ha pos hpos => exact .inr (.inr ⟨ha, by simp, rfl⟩)
  | _ => exact absurd rfl h

/-- Settles O31: reset, a block's end, and the three commands that leave the phase, each by its word. -/
theorem phaseTransitions : Obligations.PhaseTransitions := by
  intro s t hx hphase
  cases step_effect hx with
  | reset rest hh => exact .inl ⟨⟨rest, hh⟩, rfl⟩
  | engine hb hh => exact .inr (.inr (.inr (.inr ⟨hb, engineStep_phase_of_ne hphase⟩)))
  | quiet => exact absurd rfl hphase
  | illegal => exact absurd rfl hphase
  | command hp w rest hh i hd he =>
    have hw := eq_encode_of_decode hd
    rcases he.phase_of_ne hphase with ⟨rfl, ht⟩ | ⟨ha, ht, h63, b, rfl⟩ | ⟨ha, ht, rfl⟩
    · exact .inr (.inl ⟨hp, ⟨rest, by rw [hh, hw]; rfl⟩, ht⟩)
    · exact .inr (.inr (.inl ⟨ha, ht, h63, w, rest, hh, by rw [hw, (encode_div_mod _).1]; rfl⟩))
    · exact .inr (.inr (.inr (.inl ⟨ha, ht, rest, by rw [hh, hw]; rfl⟩)))

end Sys2Proof.Machine
end

section
/-! The statements of 41_packer.md: Pad (R120 to R125), WRBYTE and FINAL (R126, R127), and the blocks the packer hands to
the engine over a whole message (R129). -/

namespace Sys2Proof.Machine

open Sys2Proof Host

/-! ## The blocks of a whole message (R129) -/

theorem hashMoves_append (msg : List Byte) (rest : List HostMove) :
    hashMoves msg ++ rest = .command (encode .init) ::
      (msg.map (fun b => .command (encode (.wrbyte b))) ++ .command (encode .final) :: rest) := by
  simp [hashMoves]

theorem div_le_blockCount (len : Nat) : len / 64 ≤ blockCount len := by
  unfold blockCount
  omega

/-- The steps of a message, split where the host comes to present FINAL. -/
theorem digestSteps_eq (len : Nat) :
    digestSteps len = (1 + (len + 82 * (len / 64))) + (1 + 82 * (blockCount len - len / 64)) := by
  have := div_le_blockCount len
  unfold digestSteps
  omega

/-- INIT and the bytes of a message, up to FINAL: the full data blocks are loaded, and the rest of the message is held. -/
theorem steps_until_final {s : State} {msg : List Byte} {rest : List HostMove} (ready : s.phase ≠ .busy)
    (fits : msg.length ≤ s.cfg.maxLen) (hh : s.host = hashMoves msg ++ rest) :
    ∃ t : State, Absorbed s.cfg s.faultLog s.doutMisused msg t ∧ t.host = .command (encode .final) :: rest ∧
      steps (1 + (msg.length + 82 * (msg.length / 64))) s = .next t ∧
      loadedBlocks (1 + (msg.length + 82 * (msg.length / 64))) s =
        (List.range (msg.length / 64)).map (dataBlock msg) := by
  rw [hashMoves_append] at hh
  obtain ⟨u, started, uHost, uSteps, uLoaded⟩ := init_absorbed ready hh
  obtain ⟨t, absorbed, tHost, tSteps, tLoaded⟩ := absorb_bytes msg started fits uHost
  have fromZero : ([] ++ msg : List Byte).length / 64 - ([] : List Byte).length / 64 = msg.length / 64 := by simp
  rw [fromZero] at tSteps tLoaded
  refine ⟨t, absorbed, tHost, ?_, ?_⟩
  · rw [steps_add _ _ _ uSteps, tSteps]
  · rw [loadedBlocks_add _ _ _ uSteps, uLoaded, tLoaded, List.range_eq_range']
    rfl

/-- Pad's blocks are the full data blocks of the message and the blocks from the pad byte's on (R120, R123). -/
theorem padBlocks_eq_append (policy : LenPolicy) (msg : List Byte) :
    padBlocks policy msg = (List.range (msg.length / 64)).map (dataBlock msg) ++
      (List.range' (msg.length / 64) (blockCount msg.length - msg.length / 64)).map (wordBlock (padWords policy msg)) := by
  have full : (List.range (msg.length / 64)).map (dataBlock msg) =
      (List.range (msg.length / 64)).map (wordBlock (padWords policy msg)) :=
    List.map_congr_left fun k hk => dataBlock_eq_pad policy msg k (List.mem_range.mp hk)
  have rangeSplit : List.range (blockCount msg.length) =
      List.range (msg.length / 64) ++ List.range' (msg.length / 64) (blockCount msg.length - msg.length / 64) := by
    have count : msg.length / 64 + (blockCount msg.length - msg.length / 64) = blockCount msg.length :=
      Nat.add_sub_of_le (div_le_blockCount msg.length)
    rw [List.range_eq_range', List.range_eq_range', ← count, ← List.range'_append_1, count, Nat.zero_add]
  rw [full, ← List.map_append, ← rangeSplit, padBlocks]

/-- Settles O45: the run up to FINAL loads the full data blocks, and FINAL's BUSY period the blocks from the pad byte's on. -/
theorem loadedBlocksArePadBlocks : Obligations.LoadedBlocksArePadBlocks := by
  intro s msg rest ready fits hh noReset
  obtain ⟨t, absorbed, tHost, tSteps, dataLoaded⟩ := steps_until_final ready fits hh
  obtain ⟨u, -, finalLoaded, -⟩ := final_digest absorbed tHost noReset
  rw [digestSteps_eq, loadedBlocks_add _ _ _ tSteps, dataLoaded, finalLoaded, padBlocks_eq_append]

/-! ## WRBYTE (R126) -/

/-- WRBYTE's effect as one update of the state: the 64th byte starts a BUSY period. -/
theorem State.appendByte_eq {s : State} (ha : s.phase = .absorb) (b : Byte) (pos : Fin 64) :
    s.appendByte b pos = { s with
      M := setBlockByte s.M pos b
      p := pos.succ
      L := s.L + 1
      phase := if pos.val = 63 then .busy else .absorb
      after := if pos.val = 63 then .absorb else s.after
      rc := if pos.val = 63 then 0 else s.rc } := by
  by_cases last : pos.val = 63
  · simp [State.appendByte, State.enterBusy, last]
  · simp [State.appendByte, last, ← ha]

theorem exec_wrbyte_length {s : State} (b : Byte) (ha : s.phase = .absorb) (hl : s.L = s.cfg.maxLen) :
    exec (.wrbyte b) s = .next (s.raise .length) := by
  have legal : onlyAbsorb s.phase = .legal := by rw [ha]; rfl
  simp only [exec, execWrbyte, whenLegal_of_legal legal, if_pos hl]

/-- Every command's reserved field is 0 (R76). -/
theorem execute_reserved_illegal {w : CmdWord} (h : w.toNat / 0x100 % 0x10 ≠ 0) (s : State) :
    execute w s = .next (s.raise .illegal) := by
  obtain ⟨why, illegal⟩ := (decode_illegal_iff w).mpr (.inr (.inl h))
  exact execute_of_decode_illegal illegal s

/-- Settles O16: inside the block below the maximum length it is the model's appendByte; each other case is one refusal. -/
theorem wrbyteAppendsByte : Obligations.WrbyteAppendsByte := by
  refine ⟨fun b s pos ha hpos hl => ?_, fun b s => exec_wrbyte_length b,
    fun b s => exec_packer_sequence (.inl ⟨b, rfl⟩), fun b s => exec_of_busy (.wrbyte b),
    fun w _ => execute_reserved_illegal⟩
  exact ⟨s.appendByte b pos, exec_wrbyte_inside b ha hl pos hpos, State.appendByte_eq ha b pos⟩

/-! ## FINAL (R127) -/

theorem exec_final_inside {s : State} (ha : s.phase = .absorb) (pos : Fin 64) (hpos : s.p.val = pos.val) :
    exec .final s = .next (s.padMessage pos) := by
  rw [exec_final_absorb ha, atPosition_eq pos hpos]

/-- FINAL's effect as one update of the state. -/
theorem State.padMessage_eq (s : State) (pos : Fin 64) :
    s.padMessage pos = { s with
      M := if pos.val ≤ 55 then setLength s.cfg.lenPolicy s.L (setBlockByte s.M pos 0x80) else setBlockByte s.M pos 0x80
      after := if pos.val ≤ 55 then .done else .lenblk
      phase := .busy
      rc := 0 } := by
  by_cases fits : pos.val ≤ 55 <;> simp [State.padMessage, State.enterBusy, fits]

theorem State.padMessage_statusPort {s : State} (pos : Fin 64) (herr : s.err = false) (hecode : s.ecode = .none) :
    (s.padMessage pos).statusPort = 0x02 := by
  simp [State.statusPort, State.ready, herr, hecode, Phase.code, ErrCode.code]

/-- Settles O18: in ABSORB it is the model's padMessage, held or refused elsewhere, and 0x3000 is its only word. -/
theorem finalPadsBlock : Obligations.FinalPadsBlock := by
  refine ⟨fun s pos ha hpos => ?_, fun s => exec_packer_sequence (.inr rfl), fun s => exec_of_busy .final,
    fun w hop hw s => execute_operandless_illegal (.inr (.inr hop)) (by omega) s⟩
  exact ⟨s.padMessage pos, exec_final_inside ha pos hpos, State.padMessage_statusPort pos, State.padMessage_eq s pos⟩

/-- A replaced byte, found by its number in the block. -/
theorem blockByte_setBlockByte_val (m : Vector Word 16) (pos j : Fin 64) (b : Byte) :
    blockByte (setBlockByte m pos b) j = if j.val = pos.val then b else blockByte m j := by
  rw [blockByte_setBlockByte]
  exact if_congr Fin.ext_iff rfl rfl

/-- Settles O19: the length words replace the last eight bytes, which a pad byte at 55 or before does not reach. -/
theorem finalBlockBytes : Obligations.FinalBlockBytes := by
  intro s ha hp
  let pos : Fin 64 := ⟨s.p.val, hp⟩
  refine ⟨s.padMessage pos, exec_final_inside ha pos rfl, fun fits j => ?lengthFits, fun overflow j => ?padOnly⟩
  case lengthFits =>
    have padBeforeLength : j.val = s.p.val → ¬ 60 ≤ j.val ∧ ¬ 56 ≤ j.val := by omega
    rw [State.padMessage_M, if_pos fits, blockByte_setLength, blockByte_setBlockByte_val]
    by_cases atPad : j.val = s.p.val
    · obtain ⟨notLow, notHigh⟩ := padBeforeLength atPad
      rw [if_neg notLow, if_neg notHigh, if_pos atPad, if_pos atPad]
    · rw [if_neg atPad, if_neg atPad]
  case padOnly =>
    rw [State.padMessage_M, if_neg (Nat.not_le_of_lt overflow), blockByte_setBlockByte_val]

/-! ## The length words (R125) -/

theorem lenLo_toNat (len : Nat) : (lenLo len).toNat = 8 * len % 2 ^ 32 := BitVec.toNat_ofNat _ _

theorem lenHi_full64_toNat (len : Nat) : (lenHi .full64 len).toNat = 8 * len / 2 ^ 32 % 2 ^ 32 := BitVec.toNat_ofNat _ _

/-- Below 2^61 bytes the bit length fits the 64-bit field. -/
theorem lengthField_toNat {len : Nat} (h : len < 2 ^ 61) :
    (lenHi .full64 len).toNat * 2 ^ 32 + (lenLo len).toNat = 8 * len := by
  rw [lenHi_full64_toNat, lenLo_toNat]
  omega

/-- The policies differ in the high word, which is 0 exactly while the bit length stays below 2^32. -/
theorem lenHi_trunc32_eq_full64_iff {len : Nat} (h : len < 2 ^ 61) :
    lenHi .trunc32 len = lenHi .full64 len ↔ len < 2 ^ 29 := by
  have truncated : (lenHi .trunc32 len).toNat = 0 := rfl
  rw [BitVec.toNat_eq, truncated, lenHi_full64_toNat]
  omega

/-- The policy enters Pad through the high length word alone. -/
theorem sha1Words_congr {policy policy' : LenPolicy} {msg : List Byte}
    (h : lenHi policy msg.length = lenHi policy' msg.length) : sha1Words policy msg = sha1Words policy' msg := by
  simp only [sha1Words, padBlocks, padWords, h]

/-- Settles O21, from the length words as numbers. -/
theorem lengthFieldWords : Obligations.LengthFieldWords := by
  refine ⟨fun len => ⟨lenLo_toNat len, rfl, lenHi_full64_toNat len⟩, fun len => lengthField_toNat,
    fun len => lenHi_trunc32_eq_full64_iff, fun msg short => ?_, by decide⟩
  exact sha1Words_congr ((lenHi_trunc32_eq_full64_iff (by omega)).mpr short)

/-! ## Pad (R120 to R124) -/

/-- The pad byte and the eight length bytes fit behind the message (R121). -/
theorem add_nine_le_blockCount (len : Nat) : len + 9 ≤ 64 * blockCount len := by
  unfold blockCount
  omega

theorem blockCount_le {len n : Nat} (h : len + 9 ≤ 64 * n) : blockCount len ≤ n := by
  unfold blockCount
  omega

theorem padBlocks_length (policy : LenPolicy) (msg : List Byte) :
    (padBlocks policy msg).length = blockCount msg.length := by
  simp [padBlocks]

/-- Settles O42: 64 * n reaches L + 9 exactly when n is above (L + 8) div 64; Pad makes a block per index below nblk. -/
theorem padBlockCount : Obligations.PadBlockCount := fun policy msg =>
  ⟨rfl, add_nine_le_blockCount msg.length, fun _ => blockCount_le, padBlocks_length policy msg⟩

/-- Settles O43: a block's byte is the stream's, whose five ranges are disjoint since the length fits behind the pad byte. -/
theorem paddedStreamBytes : Obligations.PaddedStreamBytes := by
  intro policy msg k j hk i last
  have room : msg.length + 9 ≤ last := add_nine_le_blockCount msg.length
  have inside : i < last := by omega
  refine ⟨_, padBlocks_get policy msg k hk, ?_⟩
  rw [blockByte_wordBlock, streamByte_padWords]
  refine ⟨fun message => ?_, fun padByte => ?_, fun afterPad beforeLength => ?_, fun high beforeLow => ?_, fun low => ?_⟩
  · rw [if_pos message, List.getD_eq_getElem]
  · rw [if_neg (by omega), if_pos padByte]
  · rw [if_neg (by omega), if_neg (by omega), if_pos beforeLength]
  · rw [if_neg (by omega), if_neg (by omega), if_neg (by omega), if_pos beforeLow]
  · rw [if_neg (by omega), if_neg (by omega), if_neg (by omega), if_neg (by omega), if_pos inside]

end Sys2Proof.Machine
end

section
/-! The statement of 42_schedule.md: the reference function Expand (R141, R144). -/

namespace Sys2Proof.Machine

open Sys2Proof Host

/-- From word 16 on, a round's word is the recurrence over the words before it (R141, R142). -/
theorem roundWord_of_le (w : Vector Word 80) (t : Fin 80) (h : 16 ≤ t.val) :
    roundWord w t = scheduleWord (w[t.val - 3]) (w[t.val - 8]) (w[t.val - 14]) (w[t.val - 16]) :=
  if_pos h

/-- Settles O41: the first sixteen words are the block's, and Expand's words are those a round reads from them. -/
theorem expandFollowsRecurrence : Obligations.ExpandFollowsRecurrence := by
  refine fun block t => ⟨fun copied => ?_, fun computed => ?_⟩
  · rw [getElem_expand, expandWords_copy block 64 copied]
  · have own : roundWord (expand block) t = (expand block)[t.val] :=
      roundWord_eq_expand block (expand block) t fun _ _ => rfl
    rw [← own, roundWord_of_le _ t computed, scheduleWord]

end Sys2Proof.Machine
end

section
/-! The statements of 43_compression.md: LOAD (R154), ROUND(t) (R155 to R157), FOLD (R158, R159), and the block they
compute (R160). -/

namespace Sys2Proof.Machine

open Sys2Proof Host

/-! ## LOAD (R140, R154) -/

theorem loadSchedule_of_lt (m : Vector Word 16) (w : Vector Word 80) {i : Nat} (h : i < 16) :
    (loadSchedule m w)[i] = m[i] := by
  simp [loadSchedule, h]

theorem loadSchedule_of_le (m : Vector Word 16) (w : Vector Word 80) {i : Nat} (h : 16 ≤ i) (hi : i < 80) :
    (loadSchedule m w)[i] = w[i] := by
  simp [loadSchedule, Nat.not_lt.mpr h]

/-- Settles O36: in rc = 0 the engine step is LOAD, whose schedule holds M below word 16 and the old words from there on. -/
theorem loadStep : Obligations.LoadStep := fun s _ hrc =>
  ⟨engineLoad s, engineStep_load hrc, fun i => loadSchedule_of_lt s.M s.W i.isLt,
    fun i computed => loadSchedule_of_le s.M s.W computed i.isLt, rfl⟩

/-! ## ROUND(t) (R151 to R153, R155 to R157) -/

theorem quartile_eq (t : Fin 80) :
    quartile t = if t.val < 20 then 0 else if t.val < 40 then 1 else if t.val < 60 then 2 else 3 := by
  have ht := t.isLt
  rw [Fin.ext_iff, quartile]
  split_ifs <;> dsimp only <;> omega

/-- The nonlinear function of round t by the round's index (R151, R152). -/
theorem roundFunction_quartile (t : Fin 80) (b c d : Word) :
    roundFunction (quartile t) b c d =
      if t.val < 20 then (b &&& c) ||| (~~~b &&& d)
      else if t.val < 40 then b ^^^ c ^^^ d
      else if t.val < 60 then (b &&& c) ||| (b &&& d) ||| (c &&& d)
      else b ^^^ c ^^^ d := by
  rw [quartile_eq]
  split_ifs <;> rfl

/-- The constant of round t by the round's index (R151, R153). -/
theorem roundConstant_quartile (t : Fin 80) :
    roundConstant (quartile t) =
      if t.val < 20 then 0x5A827999 else if t.val < 40 then 0x6ED9EBA1
      else if t.val < 60 then 0x8F1BBCDC else 0xCA62C1D6 := by
  rw [quartile_eq]
  split_ifs <;> rfl

/-- Below word 16, a round's word is the one LOAD left (R142). -/
theorem roundWord_of_lt (w : Vector Word 80) (t : Fin 80) (h : t.val < 16) : roundWord w t = w[t.val] :=
  if_neg (Nat.not_le.mpr h)

/-- ROUND(t) writes the schedule's word t alone, and that one from word 16 on (R142, R156). -/
theorem getElem_engineRound_W (t : Fin 80) (s : State) (i : Fin 80) :
    (engineRound t s).W[i.val] = if i = t ∧ 16 ≤ t.val then roundWord s.W t else s.W[i.val] := by
  by_cases computed : 16 ≤ t.val
  · simp only [engineRound_W, computed, if_true, and_true, Vector.getElem_set, Fin.ext_iff, eq_comm]
  · simp only [engineRound_W, computed, if_false, and_false]

/-- Settles O37: the word given is the round's, and f and K are those of the quartile of t. -/
theorem roundStep : Obligations.RoundStep := by
  intro s t _ hrc wt copied computed
  have hwt : wt = roundWord s.W t := by
    rcases Nat.lt_or_ge t.val 16 with below | above
    · rw [roundWord_of_lt s.W t below, copied below]
    · rw [roundWord_of_le s.W t above, scheduleWord, computed above]
  subst hwt
  refine ⟨engineRound t s, engineStep_round t hrc, getElem_engineRound_W t s, ?_⟩
  rw [← roundFunction_quartile, ← roundConstant_quartile]
  rfl

/-! ## FOLD and block completion (R128, R158, R159) -/

/-- The length block word by word (R128). -/
theorem lengthBlock_eq (policy : LenPolicy) (len : Nat) :
    lengthBlock policy len = #v[0, 0, 0, 0, 0, 0, 0, 0, 0, 0, 0, 0, 0, 0, lenHi policy len, lenLo len] := rfl

/-- Settles O38: FOLD's H is foldHash, and block completion follows `after`. -/
theorem foldStep : Obligations.FoldStep := by
  intro s _ hrc h
  rw [engineStep_fold hrc, engineFold, completeBlock]
  refine ⟨fun absorb => ?_, fun lenblk => ?_, fun done => ?_⟩
  · simp only [absorb]
    rfl
  · simp only [lenblk, lengthBlock_eq]
    rfl
  · simp only [done]
    rfl

/-! ## A whole block (R160) -/

theorem completeBlock_H (s : State) : (completeBlock s).H = s.H := by
  unfold completeBlock
  split <;> rfl

theorem completeBlock_rc (s : State) : (completeBlock s).rc = 0 := by
  unfold completeBlock
  split <;> rfl

/-- Settles O39: LOAD and the 80 rounds follow the reference's rounds (engineSteps_rounds), FOLD adds their result to H, and
inside the block the engine only counts. -/
theorem blockComputesCompress : Obligations.BlockComputesCompress := by
  intro s hbusy hrc
  obtain ⟨w, block⟩ := engineSteps_block s hrc
  refine ⟨by rw [block, completeBlock_H], by rw [block, completeBlock_rc]; rfl, fun k hk => ?inside⟩
  case inside =>
    obtain ⟨phase, count, hash, -⟩ := engineSteps_inside s hrc k hk
    exact ⟨phase.trans hbusy, count, hash⟩

end Sys2Proof.Machine
end

section
/-! The statements of 44_digest_out.md: digest bytes and hex digits (R181 to R183), the read commands (R184 to R186), the
digest string (R187), its stability in DONE (R188), and the digest of a whole command sequence (R189). -/

namespace Sys2Proof.Machine

open Sys2Proof Host

/-! ## Digest bytes and hex digits (R181 to R183) -/

/-- A zero-extended lane by shift and mask (R15, R16). -/
theorem zext32_lane (w : Word) (k : Fin 4) : zext32 (lane w k) = (w >>> (24 - 8 * k.val)) &&& 0xFF := by
  apply BitVec.eq_of_getLsbD_eq
  intro i hi
  have mask : (0xFF : Word).getLsbD i = decide (i < 8) := ff_getLsbD i
  rw [zext32, BitVec.getLsbD_setWidth, BitVec.getLsbD_and, BitVec.getLsbD_ushiftRight, mask]
  by_cases inLane : i < 8
  · rw [lane_getLsbD w k i inLane]
    simp [inLane, hi]
  · simp [BitVec.getLsbD_of_ge _ i (Nat.le_of_not_lt inLane), inLane]

theorem zext32_digestByte (h : Vector Word 5) (j : Fin 20) :
    zext32 (digestByte h j) = (h[j.val / 4] >>> (24 - 8 * (j.val % 4))) &&& 0xFF :=
  zext32_lane _ _

/-- Half a lane is a nibble of the word, lane 0 and its high half first (R15, R182). -/
theorem lane_nibble (w : Word) (k : Fin 4) {start : Nat} (h : start + 4 ≤ 8) :
    (lane w k).extractLsb' start 4 = w.extractLsb' (24 - 8 * k.val + start) 4 := by
  apply BitVec.eq_of_getLsbD_eq
  intro i hi
  simp only [BitVec.getLsbD_extractLsb', lane_getLsbD w k (start + i) (by omega), Nat.add_assoc]

/-- Hex digit i is nibble i mod 8 of word i div 8, most significant first (R182). -/
theorem hexNibble_eq_extractLsb' (h : Vector Word 5) (i : Fin 40) :
    hexNibble h i = h[i.val / 8].extractLsb' (4 * (7 - i.val % 8)) 4 := by
  have word : i.val / 2 / 4 = i.val / 8 := Nat.div_div_eq_div_mul ..
  have index : (Fin.ofNat 4 (i.val / 2)).val = i.val / 2 % 4 := rfl
  simp only [hexNibble, digestByte, word]
  split
  next even =>
    have place : 24 - 8 * (i.val / 2 % 4) + 4 = 4 * (7 - i.val % 8) := by omega
    rw [lane_nibble _ _ (by omega), index, place]
  next odd =>
    have place : 24 - 8 * (i.val / 2 % 4) + 0 = 4 * (7 - i.val % 8) := by omega
    rw [lane_nibble _ _ (by omega), index, place]

/-- The value of hex digit i, as a number (R182). -/
theorem hexNibble_toNat (h : Vector Word 5) (i : Fin 40) :
    (hexNibble h i).toNat = h[i.val / 8].toNat / 16 ^ (7 - i.val % 8) % 16 := by
  rw [hexNibble_eq_extractLsb', BitVec.extractLsb'_toNat, Nat.shiftRight_eq_div_pow, Nat.pow_mul]

/-- The code of a digit as R183 gives it, over the sixteen digits. -/
theorem zext32_hexCode : ∀ v : BitVec 4,
    zext32 (hexCode v) = BitVec.ofNat 32 (if v.toNat ≤ 9 then 0x30 + v.toNat else 0x61 + (v.toNat - 10)) := by
  decide

theorem hexCode_range : ∀ v : BitVec 4,
    (0x30 ≤ (hexCode v).toNat ∧ (hexCode v).toNat ≤ 0x39) ∨ (0x61 ≤ (hexCode v).toNat ∧ (hexCode v).toNat ≤ 0x66) := by
  decide

/-! ## The digest string (R187) -/

theorem hexString_length (h : Vector Word 5) : (hexString h).length = 40 := by
  rw [hexString, List.length_map, List.length_finRange]

theorem hexString_getD (h : Vector Word 5) (i : Fin 40) (default : Byte) :
    (hexString h).getD i.val default = hexCode (hexNibble h i) := by
  simp [hexString]

/-- Settles O25: the string has a character per index, and each is the code of a hex digit. -/
theorem digestStringIsLowercaseHex : Obligations.DigestStringIsLowercaseHex := by
  refine fun h => ⟨hexString_length h, fun c hc => ?_⟩
  obtain ⟨i, -, rfl⟩ := List.mem_map.mp hc
  exact hexCode_range (hexNibble h i)

/-! ## The read commands in DONE (R184 to R186) -/

section
variable {s : State} (hp : s.phase = .done)
include hp

theorem whenLegal_read_of_done {rule : State → Result} : whenLegal onlyDone s rule = rule s :=
  whenLegal_of_legal (by rw [hp]; rfl)

theorem exec_rdword_inRange {k : Byte} (h : k.toNat < 5) :
    exec (.rdword k) s = .next (s.writeDout s.H[k.toNat]) := by
  rw [exec, execRdword, whenLegal_read_of_done hp, wordIndex, dif_pos h]
  rfl

theorem exec_rdword_range {k : Byte} (h : 4 < k.toNat) : exec (.rdword k) s = .next (s.raise .range) := by
  rw [exec, execRdword, whenLegal_read_of_done hp, wordIndex, dif_neg (by omega)]
  rfl

theorem exec_rdbyte_inRange {j : Byte} (h : j.toNat < 20) :
    exec (.rdbyte j) s = .next (s.writeDout (zext32 (digestByte s.H ⟨j.toNat, h⟩))) := by
  rw [exec, execRdbyte, whenLegal_read_of_done hp, byteIndex, dif_pos h]
  rfl

theorem exec_rdbyte_range {j : Byte} (h : 19 < j.toNat) : exec (.rdbyte j) s = .next (s.raise .range) := by
  rw [exec, execRdbyte, whenLegal_read_of_done hp, byteIndex, dif_neg (by omega)]
  rfl

theorem exec_rdhex_inRange {i : Byte} (h : i.toNat < 40) :
    exec (.rdhex i) s = .next (s.writeDout (zext32 (hexCode (hexNibble s.H ⟨i.toNat, h⟩)))) := by
  rw [exec, execRdhex, whenLegal_read_of_done hp, charIndex, dif_pos h]
  rfl

theorem exec_rdhex_range {i : Byte} (h : 39 < i.toNat) : exec (.rdhex i) s = .next (s.raise .range) := by
  rw [exec, execRdhex, whenLegal_read_of_done hp, charIndex, dif_neg (by omega)]
  rfl

end

/-- Settles O22, case by case of the index and the phase; a reserved field that is not 0 is Illegal. -/
theorem rdwordReturnsHashWord : Obligations.RdwordReturnsHashWord := by
  refine ⟨fun k s hp => ⟨fun h => ?_, exec_rdword_range hp⟩, fun k s => exec_read_sequence ⟨k, .inl rfl⟩,
    fun k s => exec_of_busy (.rdword k), fun w _ => execute_reserved_illegal⟩
  rw [exec_rdword_inRange hp h]
  rfl

/-- Settles O23: the byte written is a lane of H, zero-extended. -/
theorem rdbyteReturnsDigestByte : Obligations.RdbyteReturnsDigestByte := by
  refine ⟨fun j s hp => ⟨fun h => ⟨_, exec_rdbyte_inRange hp h, ?_⟩, exec_rdbyte_range hp⟩,
    fun j s => exec_read_sequence ⟨j, .inr (.inl rfl)⟩, fun j s => exec_of_busy (.rdbyte j),
    fun w _ => execute_reserved_illegal⟩
  rw [zext32_digestByte]
  rfl

/-- Settles O24: the code written is that of a nibble of H, whose value is the digit's. -/
theorem rdhexReturnsHexDigit : Obligations.RdhexReturnsHexDigit := by
  refine ⟨fun i s hp => ⟨fun h => ⟨_, exec_rdhex_inRange hp h, _, hexNibble_toNat s.H ⟨i.toNat, h⟩, ?_⟩,
      exec_rdhex_range hp⟩,
    fun i s => exec_read_sequence ⟨i, .inr (.inr rfl)⟩, fun i s => exec_of_busy (.rdhex i),
    fun w _ => execute_reserved_illegal⟩
  rw [zext32_hexCode]
  rfl

/-! ## H in DONE (R188) -/

/-- DONE with the digest h, and a host that has neither INIT nor reset to come. -/
structure KeepsDigest (h : Vector Word 5) (s : State) : Prop where
  phase : s.phase = .done
  H : s.H = h
  noReset : .reset ∉ s.host
  noInit : .command 0x1000 ∉ s.host

/-- A step that accepts no command adds no move. -/
theorem HostSide.subset {s : State} {rest : List HostMove} {m : Bool} (hs : HostSide s rest m) : rest ⊆ s.host := by
  cases hs with
  | held => exact List.Subset.refl _
  | wait hh | useDout hh =>
    rw [hh]
    exact List.subset_cons_self _ _

theorem KeepsDigest.congr {h : Vector Word 5} {s t : State} (hs : KeepsDigest h s) (hphase : t.phase = s.phase)
    (hH : t.H = s.H) (hhost : t.host ⊆ s.host) : KeepsDigest h t :=
  ⟨hphase.trans hs.phase, hH.trans hs.H, fun hm => hs.noReset (hhost hm), fun hm => hs.noInit (hhost hm)⟩

theorem KeepsDigest.step {h : Vector Word 5} {s t : State} (hs : KeepsDigest h s) (hx : step s = .next t) :
    KeepsDigest h t := by
  cases step_effect hx with
  | reset rest hh => exact absurd (by simp [hh]) hs.noReset
  | engine hb hh => exact absurd (hs.phase.symm.trans hb) (by decide)
  | quiet hp hh hc => exact hs.congr rfl rfl hh.subset
  | illegal hp w rest hh why hd => exact hs.congr rfl rfl (by simp [hh])
  | command hp w rest hh i hd he =>
    have notInit : i ≠ .init := by
      rintro rfl
      have hw : w = 0x1000 := eq_encode_of_decode hd
      exact hs.noInit (by simp [hh, hw])
    obtain ⟨-, -, -, -, -, -, -, hhost, -⟩ := he.engine_host_kept
    refine hs.congr ?_ (he.H_kept notInit) (by simp [hh, hhost])
    by_contra changed
    rcases he.phase_of_ne changed with ⟨init, -⟩ | ⟨ha, -⟩ | ⟨ha, -⟩
    · exact notInit init
    all_goals exact absurd (hs.phase.symm.trans ha) (by decide)

theorem KeepsDigest.run {n : Nat} {h : Vector Word 5} {s t : State} (hs : KeepsDigest h s)
    (hx : steps n s = .next t) : KeepsDigest h t := by
  induction n generalizing s with
  | zero => cases hx; exact hs
  | succ n ih =>
    obtain ⟨u, hu, hx⟩ := steps_succ_eq_next.mp hx
    exact ih (hs.step hu) hx

theorem toNat_ofNat_val_lt {n : Nat} (hn : n ≤ 2 ^ 8) (i : Fin n) : (BitVec.ofNat 8 i.val).toNat < n := by
  rw [BitVec.toNat_ofNat, Nat.mod_eq_of_lt (by omega)]
  exact i.isLt

/-- In DONE, a read command with its index in range writes a value that depends on H alone (R184 to R186). -/
theorem exec_read_inRange {r : Instr} (hr : (∃ k : Fin 5, r = .rdword (BitVec.ofNat 8 k.val)) ∨
    (∃ j : Fin 20, r = .rdbyte (BitVec.ofNat 8 j.val)) ∨ ∃ i : Fin 40, r = .rdhex (BitVec.ofNat 8 i.val)) :
    ∃ value : Vector Word 5 → Word, ∀ s : State, s.phase = .done → exec r s = .next (s.writeDout (value s.H)) := by
  rcases hr with ⟨k, rfl⟩ | ⟨j, rfl⟩ | ⟨i, rfl⟩
  · have inRange := toNat_ofNat_val_lt (by decide) k
    exact ⟨fun h => h[(BitVec.ofNat 8 k.val).toNat], fun s hp => exec_rdword_inRange hp inRange⟩
  · have inRange := toNat_ofNat_val_lt (by decide) j
    exact ⟨fun h => zext32 (digestByte h ⟨_, inRange⟩), fun s hp => exec_rdbyte_inRange hp inRange⟩
  · have inRange := toNat_ofNat_val_lt (by decide) i
    exact ⟨fun h => zext32 (hexCode (hexNibble h ⟨_, inRange⟩)), fun s hp => exec_rdhex_inRange hp inRange⟩

/-- Settles O26: no step of such a run leaves DONE or writes H, and what a read writes depends on H alone. -/
theorem digestStableInDone : Obligations.DigestStableInDone := by
  intro n s t hp noReset noInit hx
  obtain ⟨tPhase, tHash, -, -⟩ := KeepsDigest.run ⟨hp, rfl, noReset, noInit⟩ hx
  refine ⟨tPhase, tHash, fun k j i r u v hr hu hv => ?_⟩
  obtain ⟨value, reads⟩ := exec_read_inRange (hr.imp (.intro k) (.imp (.intro j) (.intro i)))
  rw [reads s hp] at hu
  rw [reads t tPhase, tHash] at hv
  cases hu
  cases hv
  rfl

/-! ## The digest of any message (R189) -/

/-- The read-out up to character i, and what is left of it. -/
theorem readHexMoves_append (i : Fin 40) (rest : List HostMove) : ∃ later, readHexMoves ++ rest =
    (List.range i.val ++ [i.val]).map (fun x => .command (encode (.rdhex (BitVec.ofNat 8 x)))) ++ later := by
  have rangeSplit : List.range 40 = List.range i.val ++ [i.val] ++ (List.range (39 - i.val)).map (i.val + 1 + ·) := by
    rw [← List.range_succ, ← List.range_add]
    congr 1
    omega
  exact ⟨_, by rw [readHexMoves, rangeSplit, List.map_append, List.append_assoc]⟩

/-- Settles O46: the message is absorbed and finished (R129, R161), then each RDHEX writes its character's code. -/
theorem digestOfAnyMessage : Obligations.DigestOfAnyMessage := by
  intro s msg rest ready fits hh
  rw [List.append_assoc] at hh
  obtain ⟨a, absorbed, aHost, aSteps, -⟩ := steps_until_final ready fits hh
  obtain ⟨t, tSteps, -, tPhase, tHash, tLength, tErr, tCode, tLog, held⟩ := final_digest absorbed aHost trivial
  obtain ⟨tHost, tMisused⟩ := held _ _ rfl
  have run : steps (digestSteps msg.length) s = .next t := by
    rw [digestSteps_eq, steps_add _ _ _ aSteps, tSteps]
  obtain ⟨-, -, -, policiesAgree, -⟩ := lengthFieldWords
  refine ⟨⟨t, run, tPhase, tHash, tLength, tErr, tCode, tLog, tMisused⟩, fun i => ?_, policiesAgree msg⟩
  obtain ⟨later, readOut⟩ := readHexMoves_append i rest
  have below : ∀ x ∈ List.range i.val, x < 40 := fun x hx => (List.mem_range.mp hx).trans i.isLt
  obtain ⟨u, uSteps, uPhase, uHash, uErr, uLog, uMisused, uWritten, uDout⟩ :=
    read_hex_steps (List.range i.val) tPhase below i.isLt (tHost.trans readOut)
  rw [List.length_range] at uSteps
  refine ⟨u, ?_, uPhase, uHash.trans tHash, uErr.trans tErr, uLog.trans tLog, uMisused.trans tMisused, uWritten, ?_⟩
  · rw [Nat.add_assoc, steps_add _ _ _ run, uSteps]
  · rw [uDout, tHash, hexString_getD]

end Sys2Proof.Machine
end

section
/-! The statements of 60_exceptions.md: the error record (R203, R204, R206), and the model's fault records over a run
(R219, U2; logs 2, 5, 6). -/

namespace Sys2Proof.Machine

open Sys2Proof Host

/-! ## Recording a refusal (R203, R204) -/

theorem State.raise_of_no_error {s : State} (code : ErrCode) (herr : s.err = false) :
    s.raise code = { s with err := true, ecode := code, faultLog := s.faultLog ++ [code] } := by
  simp [State.raise, herr]

theorem State.raise_of_error {s : State} (code : ErrCode) (herr : s.err = true) :
    s.raise code = { s with faultLog := s.faultLog ++ [code] } := by
  simp [State.raise, herr]

/-- Settles O8, by whether an error is recorded already. -/
theorem raiseKeepsFirstCode : Obligations.RaiseKeepsFirstCode :=
  fun code _ => ⟨State.raise_of_no_error code, State.raise_of_error code⟩

/-- A command that adds to the fault record raises a code and does nothing else. -/
theorem CommandEffect.eq_raise_of_faultLog_ne {i : Instr} {s t : State} (he : CommandEffect i s t)
    (hlog : t.faultLog ≠ s.faultLog) : ∃ code : ErrCode, code ≠ .none ∧ t = s.raise code := by
  cases he with
  | packerSequence | readSequence => exact ⟨.sequence, by decide, rfl⟩
  | range => exact ⟨.range, by decide, rfl⟩
  | length => exact ⟨.length, by decide, rfl⟩
  | _ => simp at hlog

/-- Settles O10: a word is refused by the decoder or by its command's own checks, and each of them raises a code. -/
theorem refusedCommandHasNoOtherEffect : Obligations.RefusedCommandHasNoOtherEffect := by
  intro s t w rest ready presented hx hlog
  rw [step_command ready presented] at hx
  cases hd : decode w with
  | illegal why =>
    rw [execute_of_decode_illegal hd] at hx
    cases hx
    exact ⟨.illegal, by decide, rfl⟩
  | cmd i =>
    rw [execute_of_decode_cmd hd] at hx
    exact (exec_effect hx).eq_raise_of_faultLog_ne hlog

/-! ## Clearing the error record (R206) -/

/-- A command other than INIT keeps a recorded error, and its code with it: a refusal keeps the first code. -/
theorem CommandEffect.recordedError_kept {i : Instr} {s t : State} (he : CommandEffect i s t) (hi : i ≠ .init)
    (herr : s.err = true) : t.err = true ∧ t.ecode = s.ecode := by
  by_cases hlog : t.faultLog = s.faultLog
  · rw [← herr]
    exact he.errorRecord_kept hi hlog
  · obtain ⟨code, -, rfl⟩ := he.eq_raise_of_faultLog_ne hlog
    rw [State.raise_of_error code herr]
    exact ⟨herr, rfl⟩

/-- Settles O12: the engine keeps the record, and of the accepted words INIT's alone can clear it. -/
theorem errorRecordClearedOnlyByResetOrInit : Obligations.ErrorRecordClearedOnlyByResetOrInit := by
  intro s t hx herr changed
  cases step_effect hx with
  | reset rest hh => exact .inl ⟨rest, hh⟩
  | engine hb hs =>
    obtain ⟨-, errKept, codeKept, -⟩ := engineStep_frame s
    simp [errKept, codeKept, herr] at changed
  | quiet => simp [herr] at changed
  | illegal => simp [herr] at changed
  | command hp w rest hh i hd he =>
    by_cases hi : i = .init
    · subst hi
      have hw : w = 0x1000 := eq_encode_of_decode hd
      rw [he.init_eq hp]
      exact .inr ⟨hp, ⟨rest, by rw [hh, hw]⟩, rfl, rfl⟩
    · obtain ⟨errKept, codeKept⟩ := he.recordedError_kept hi herr
      simp [errKept, codeKept] at changed

/-! ## The fault records and the configuration over a run (R219, U2, R38) -/

/-- From s to t the fault records at most grow, and the configuration is the same. -/
structure KeepsRecords (s t : State) : Prop where
  faultLog : s.faultLog <+: t.faultLog
  misused : s.doutMisused = true → t.doutMisused = true
  cfg : t.cfg = s.cfg

theorem KeepsRecords.refl (s : State) : KeepsRecords s s := ⟨List.prefix_rfl, id, rfl⟩

theorem KeepsRecords.trans {s t u : State} (h : KeepsRecords s t) (g : KeepsRecords t u) : KeepsRecords s u :=
  ⟨h.faultLog.trans g.faultLog, g.misused ∘ h.misused, g.cfg.trans h.cfg⟩

/-- No recorded fault after means none before. -/
theorem KeepsRecords.noErrorRecorded {s t : State} (h : KeepsRecords s t) (ht : t.noErrorRecorded) :
    s.noErrorRecorded := by
  obtain ⟨noRefusal, noMisuse⟩ := ht
  refine ⟨List.prefix_nil.mp (noRefusal ▸ h.faultLog), ?_⟩
  by_contra recorded
  simp [h.misused (Bool.of_not_eq_false recorded)] at noMisuse

theorem HostSide.misused_kept {s : State} {rest : List HostMove} {m : Bool} (hs : HostSide s rest m)
    (hm : s.doutMisused = true) : m = true := by
  cases hs with
  | held | wait => exact hm
  | useDout => simp [hm]

theorem KeepsRecords.of_step {s t : State} (hx : step s = .next t) : KeepsRecords s t := by
  cases step_effect hx with
  | reset => exact ⟨List.prefix_rfl, id, rfl⟩
  | engine hb hs =>
    obtain ⟨-, -, -, -, cfg, -, faultLog, -, -⟩ := engineStep_frame s
    exact ⟨by simp [faultLog], hs.misused_kept, cfg⟩
  | quiet hp hs => exact ⟨List.prefix_rfl, hs.misused_kept, rfl⟩
  | illegal => exact ⟨List.prefix_append _ _, id, rfl⟩
  | command hp w rest hh i hd he =>
    obtain ⟨-, -, -, -, -, -, cfg, -, misused⟩ := he.engine_host_kept
    exact ⟨he.faultLog_eq hp ▸ List.prefix_append _ _, misused.trans, cfg⟩

theorem KeepsRecords.of_steps {n : Nat} {s t : State} (hx : steps n s = .next t) : KeepsRecords s t := by
  induction n generalizing s with
  | zero => cases hx; exact .refl _
  | succ n ih =>
    obtain ⟨u, hu, hx⟩ := steps_succ_eq_next.mp hx
    exact (KeepsRecords.of_step hu).trans (ih hx)

/-- Settles O13: every step keeps the records and the configuration, so every run does. -/
theorem faultRecordAndConfigurationKept : Obligations.FaultRecordAndConfigurationKept := by
  intro n s t hx
  have kept := KeepsRecords.of_steps hx
  exact ⟨kept.faultLog, kept.misused, kept.noErrorRecorded, kept.cfg⟩

end Sys2Proof.Machine
end

section
/-! The statements of 70_reset_and_hazards.md: reset and the entry after it (R43, R230, R231), and the end of every BUSY
period (R167, R240). -/

namespace Sys2Proof.Machine

open Sys2Proof Host

/-! ## The end of a BUSY period (R101, R167, R240) -/

/-- The engine steps that remain of a BUSY period: those of the block in progress, and a length block's if one follows. -/
def State.busyLeft (s : State) : Nat := 82 - s.rc.val + if s.after = .lenblk then 82 else 0

/-- The phase that a BUSY period ends in (R159): DONE also after a length block. -/
def State.phaseAfterBusy (s : State) : Phase := if s.after = .absorb then .absorb else .done

/-- A BUSY period has a step left: FOLD at the latest. -/
theorem State.busyLeft_pos (s : State) : 0 < s.busyLeft := by
  have hrc := s.rc.isLt
  unfold State.busyLeft
  omega

theorem State.busyLeft_eq_succ {s u : State} (hrc : u.rc.val = s.rc.val + 1) (hafter : u.after = s.after) :
    s.busyLeft = u.busyLeft + 1 := by
  have hlt := u.rc.isLt
  simp only [State.busyLeft, hafter]
  omega

theorem State.phaseAfterBusy_congr {s u : State} (hafter : u.after = s.after) :
    u.phaseAfterBusy = s.phaseAfterBusy := by
  simp only [State.phaseAfterBusy, hafter]

/-- Every engine step takes one off: the last one ends the period, and each other one stays in it. -/
theorem engineStep_busyLeft {s : State} (hp : s.phase = .busy) :
    (s.busyLeft = 1 ∧ (engineStep s).phase = s.phaseAfterBusy) ∨
    ((engineStep s).phase = .busy ∧ s.busyLeft = (engineStep s).busyLeft + 1 ∧
      (engineStep s).phaseAfterBusy = s.phaseAfterBusy) := by
  have hx := engineStep_effect s
  generalize engineStep s = u at hx
  cases hx with
  | load hrc => exact .inr ⟨hp, State.busyLeft_eq_succ (by rw [hrc]; rfl) rfl, State.phaseAfterBusy_congr rfl⟩
  | round t hrc => exact .inr ⟨hp, State.busyLeft_eq_succ (by rw [hrc]; rfl) rfl, State.phaseAfterBusy_congr rfl⟩
  | fold hrc =>
    cases hafter : s.after with
    | absorb | done => exact .inl (by simp [State.busyLeft, State.phaseAfterBusy, hrc, hafter])
    | lenblk => exact .inr (by simp [State.busyLeft, State.phaseAfterBusy, hrc, hafter, hp])

/-- The engine stays BUSY while steps are left, and then the period ends (R167, R240). -/
theorem engineSteps_busyPeriod {n : Nat} {s : State} (hp : s.phase = .busy) (hn : s.busyLeft = n) :
    (∀ k < n, (engineSteps k s).phase = .busy) ∧ (engineSteps n s).phase = s.phaseAfterBusy := by
  induction n generalizing s with
  | zero => exact absurd hn s.busyLeft_pos.ne'
  | succ n ih =>
    rcases engineStep_busyLeft hp with ⟨last, ends⟩ | ⟨stays, counts, sameEnd⟩
    · obtain rfl : n = 0 := by omega
      refine ⟨fun k hk => ?_, ends⟩
      obtain rfl : k = 0 := by omega
      exact hp
    · obtain ⟨inside, ends⟩ := ih stays (by omega)
      refine ⟨fun k hk => ?_, ends.trans sameEnd⟩
      cases k with
      | zero => exact hp
      | succ k => exact inside k (by omega)

theorem State.phaseAfterBusy_ready (s : State) : s.phaseAfterBusy ≠ .busy := by
  unfold State.phaseAfterBusy
  split <;> decide

/-- Settles O40: a held command makes every step the engine's (R101), which counts the period down to a ready phase. -/
theorem busyPeriodEnds : Obligations.BusyPeriodEnds := by
  intro s w rest hp hh
  obtain ⟨inside, ends⟩ := engineSteps_busyPeriod hp rfl
  have run : ∀ k ≤ s.busyLeft, steps k s = .next (engineSteps k s) := fun k hk =>
    steps_busy k s w rest hh fun j hj => inside j (hj.trans_le hk)
  have ready : (engineSteps s.busyLeft s).phase ≠ .busy := ends ▸ s.phaseAfterBusy_ready
  exact ⟨fun k hk => ⟨_, run k hk.le, inside k hk, engineSteps_host k s⟩,
    _, run _ le_rfl, ends, engineSteps_host _ s, step_command ready ((engineSteps_host _ s).trans hh)⟩

/-! ## Reset, and leaving IDLE (R43, R230, R231) -/

theorem State.statusPort_of_idle {s : State} (hp : s.phase = .idle) (herr : s.err = false) (hecode : s.ecode = .none) :
    s.statusPort = 0x04 := by
  simp only [State.statusPort, State.ready, hp, herr, hecode]
  rfl

/-- Settles O33: reset's values are R43's, and of the changes of phase only reset and a block's end start in BUSY. -/
theorem resetTakesAnyPhaseToIdle : Obligations.ResetTakesAnyPhaseToIdle := by
  refine ⟨fun s rest hh => ?reset, fun s t hp hx left => ?leaves⟩
  case reset =>
    exact ⟨_, step_reset hh, rfl, rfl, rfl, State.statusPort_of_idle rfl rfl rfl, rfl, rfl, rfl, rfl, rfl⟩
  case leaves =>
    rcases phaseTransitions s t hx (hp ▸ left) with
      ⟨reset, -⟩ | ⟨ready, -⟩ | ⟨absorb, -⟩ | ⟨absorb, -⟩ | ⟨-, blockEnd, -⟩
    · exact .inl reset
    · exact absurd hp ready
    · simp [hp] at absorb
    · simp [hp] at absorb
    · exact .inr blockEnd

/-- The IDLE column of the legality table (R102): every command but NOP and INIT is out of sequence. -/
theorem legalityRow_idle {i : Instr} (hnop : i ≠ .nop) (hinit : i ≠ .init) : legalityRow i .idle = .sequence := by
  cases i with
  | nop => exact absurd rfl hnop
  | init => exact absurd rfl hinit
  | _ => rfl

/-- In IDLE a word other than NOP's and INIT's is Illegal or out of sequence (R103, R231). -/
theorem execute_of_idle {w : CmdWord} {s : State} (hp : s.phase = .idle) (hinit : w ≠ encode .init)
    (hnop : w ≠ encode .nop) : execute w s = .next (s.raise .sequence) ∨ execute w s = .next (s.raise .illegal) := by
  cases hd : decode w with
  | illegal why => exact .inr (execute_of_decode_illegal hd s)
  | cmd i =>
    have hw := eq_encode_of_decode hd
    have outOfSequence : legalityRow i s.phase = .sequence := by
      rw [hp]
      exact legalityRow_idle (fun e => hnop (e ▸ hw)) (fun e => hinit (e ▸ hw))
    exact .inl ((execute_of_decode_cmd hd s).trans (exec_of_sequence outOfSequence))

/-- Settles O34: INIT's word starts a message, NOP's does nothing, and the legality table has no other legal cell in IDLE. -/
theorem idleLeftOnlyByInit : Obligations.IdleLeftOnlyByInit := by
  refine ⟨⟨rfl, State.statusPort_of_idle rfl rfl rfl, rfl⟩, fun s w rest hp hh => ?_⟩
  have ready : s.phase ≠ .busy := by simp [hp]
  refine ⟨fun hw => ?init, fun hw => ?nop, fun hinit hnop => ?refused⟩
  case init =>
    subst hw
    exact ⟨_, step_init ready hh, rfl⟩
  case nop =>
    have decodes : decode w = .cmd .nop := hw ▸ decode_encode .nop
    rw [step_command ready hh, execute_of_decode_cmd decodes, exec_nop]
  case refused =>
    rw [step_command ready hh]
    exact execute_of_idle hp hinit hnop

end Sys2Proof.Machine
end
